-- ==== Sys2Proof/Word.lean ====
section
/-! DEFINITION. The block's values: "All values are unsigned integers" (00_scope.md R9), each held in a register or
carried on a port of a width that is a parameter (R6). -/

namespace Sys2Proof

/-- An unsigned value that a register or port of `w` bits can hold: `v <= 2^w - 1`, as 00_scope.md R7 writes it. -/
def fitsWidth (w v : Nat) : Bool := decide (v ≤ 2 ^ w - 1)

end Sys2Proof
end

