-- ==== Sys2Proof/Config.lean ====
section
/-! DEFINITION. The block's parameters (00_scope.md R6), the direction values and the events of its transition system
(R11), and the free environment that chooses events. -/

namespace Sys2Proof

/-- The three legal values of `DIR` (10_state.md R19). -/
inductive Direction where
  | neutral  -- both enables off
  | forward  -- selected by Left
  | reverse  -- selected by Right
deriving DecidableEq, Repr, Inhabited

/-- The three indivisible events (00_scope.md R11). -/
inductive Event where
  | reset         -- `RESET`: power-on or a later reset (70_reset_and_hazards.md R117, R118)
  | rx (b : Nat)  -- `RX(b)`: one byte fully received, the value on a port of `BYTE_W` bits (40_decoder_mailbox.md R62)
  | tick          -- `TICK`: one iteration of the dispatcher's loop (41_dispatch.md R73)
deriving DecidableEq, Repr, Inhabited

/-- The parameters a model takes, each an argument of the configuration (00_scope.md R6). -/
structure Config where
  /-- `TOP`: ceiling of the duty counter. -/
  top : Nat
  /-- `STEP`: increment and decrement quantum. -/
  step : Nat
  /-- `DUTY_W`: width in bits of `DUTY` and `PWM_CMP`. -/
  dutyW : Nat
  /-- `BYTE_W`: width of a received byte. -/
  byteW : Nat
  /-- `CMD_W`: width of the internal Command code. -/
  cmdW : Nat
  /-- `DIR_W`: width of the direction code. -/
  dirW : Nat
  /-- `STATUS_W`: width of the status code. -/
  statusW : Nat
  /-- `DIR_RESET`: the value RESET gives `DIR` (decision D7, parameter P4). -/
  dirReset : Direction
deriving DecidableEq, Repr

/-- The values R6 gives for this hardware. -/
def Config.hardware : Config := 
  { top := 200, step := 10, dutyW := 8, byteW := 8, cmdW := 3, dirW := 2, statusW := 3, dirReset := .neutral }

/-- FREE VALUE: the event the environment causes when no script says which comes (R11, 20_memory.md R40: the order
is the environment's; 93 U4, U11). Applied to a plain counter in State. Nothing is known of it. -/
opaque Config.environmentEvent : Nat → Event

end Sys2Proof
end

