-- ==== Sys2Proof/Machine/Admission.lean ====
section
/-! DEFINITION. Which configurations the block runs in (00_scope.md R6, R7), and the byte a port of `BYTE_W` bits receives. -/

namespace Sys2Proof.Machine

/-- `1 <= STEP`. -/
def stepPositive (c : Config) : Bool := decide (1 ≤ c.step)

/-- `STEP <= TOP`. -/
def stepWithinTop (c : Config) : Bool := decide (c.step ≤ c.top)

/-- `TOP <= 2^DUTY_W - 1`. -/
def topFitsWidth (c : Config) : Bool := fitsWidth c.dutyW c.top

/-- "A configuration is admitted only if `1 <= STEP <= TOP` and `TOP <= 2^DUTY_W - 1`" (R7). -/
def configAdmitted (c : Config) : Bool := stepPositive c && stepWithinTop c && topFitsWidth c

/-- The codes of the spec's tables fit the widths, in the form R7 gives `TOP`: the highest command byte 0x73 (30_encoding.md
R49), Command code 101 (R53), direction code 10 (R55) and status code 5 (R56). Log entry 2. -/
def codesFit (c : Config) : Bool :=
  fitsWidth c.byteW 0x73 && fitsWidth c.cmdW 5 && fitsWidth c.dirW 2 && fitsWidth c.statusW 5

/-- The configurations in which the block runs. -/
def configRuns (c : Config) : Bool := configAdmitted c && codesFit c

/-- The byte received from a value on the `RX` port: the port has `BYTE_W` bits (10_state.md R23). -/
def received (c : Config) (b : Nat) : Nat := b % 2 ^ c.byteW

end Sys2Proof.Machine
end

