-- ==== Sys2Proof/Syntax.lean ====
section
/-! DEFINITION. The six Commands: the rows of spec/opcode_table.json. -/

namespace Sys2Proof

/-- A Command (30_encoding.md R53). No command has an operand (R51, R52). -/
inductive Instr where
  | left          -- 42_direction.md R87
  | right         -- 42_direction.md R88
  | increaseSpeed -- 43_duty.md R94
  | decreaseSpeed -- 43_duty.md R95
  | stop          -- 42_direction.md R89
  | idle          -- 41_dispatch.md R76
deriving DecidableEq, Repr, Inhabited

end Sys2Proof
end

