-- ==== Sys2Proof/WellFormed.lean ====
section
/-! DEFINITION. Well-formedness of commands and of configurations. -/

namespace Sys2Proof

/-- A command has no operand, no sub-field and no mode (30_encoding.md R51, R52, R59), so there is nothing to check:
each of the six is well formed. -/
def Instr.wellFormed : Instr → Bool
  | .left => true
  | .right => true
  | .increaseSpeed => true
  | .decreaseSpeed => true
  | .stop => true
  | .idle => true

/-- A configuration is well formed when 00_scope.md R7 admits it and its widths hold the spec's codes (R6). -/
def Config.wellFormed (c : Config) : Bool := Machine.configRuns c

end Sys2Proof
end

