-- ==== Sys2Proof/Decode.lean ====
section
/-! DEFINITION. The command decoder `CMD_DEC` (30_encoding.md R49, R50) and, after it, the encoder. -/

namespace Sys2Proof

/-- `LUT(b)`: the fixed lookup on the whole byte, every bit compared (R50). Total: every other byte is Idle (R57). -/
def lut (b : Nat) : Instr :=
  if b = 0b01101100 then .left                -- 'l'
  else if b = 0b01110010 then .right          -- 'r'
  else if b = 0b01110000 then .increaseSpeed  -- 'p'
  else if b = 0b01101101 then .decreaseSpeed  -- 'm'
  else if b = 0b01110011 then .stop           -- 's'
  else .idle

/-- Why a byte string is not one command. No byte is ever a reason (R57, R71). -/
inductive DecodeError where
  | noByte        -- the string is empty
  | trailingBytes -- the string is longer than one command (R59: every command is one byte)
deriving DecidableEq, Repr

/-- Reads one command from the front of a byte string and gives the rest (R51, R59). -/
def decode : List Nat → Except DecodeError (Instr × List Nat)
  | [] => .error .noByte
  | b :: rest => .ok (lut b, rest)

/-- Reads a byte string that is one command and nothing more. -/
def decodeExact (bytes : List Nat) : Except DecodeError Instr :=
  match decode bytes with
  | .error e => .error e
  | .ok (i, []) => .ok i
  | .ok (_, _ :: _) => .error .trailingBytes

/-- The commands of a byte stream, in the order received: each byte is decoded alone (R59). -/
def decodeAll : List Nat → List Instr
  | [] => []
  | b :: rest => lut b :: decodeAll rest

/-- The byte that encodes a command (R49). DESIGN CHOICE (log entry 8): 0x00 for Idle, one of its 251 bytes. -/
def commandByte : Instr → Nat
  | .left => 0x6C
  | .right => 0x72
  | .increaseSpeed => 0x70
  | .decreaseSpeed => 0x6D
  | .stop => 0x73
  | .idle => 0x00

/-- The encoder: every command is exactly one byte (R51). -/
def encode (i : Instr) : List Nat := [commandByte i]

/-- The byte stream of a sequence of commands (R60). -/
def encodeAll : List Instr → List Nat
  | [] => []
  | i :: rest => encode i ++ encodeAll rest

/-- The bytes of a table word, lowest first: `nbits` in whole bytes of this hardware and at least the one byte every
command has. -/
def wordBytes (nbits w : Nat) : List Nat :=
  (List.range (max 1 ((nbits + 7) / 8))).map fun k => w % 2 ^ nbits / 256 ^ k % 256

/-- The command the decoder reads from a word of the opcode table. -/
def decodeTableWord (nbits w : Nat) : Option Instr :=
  match decodeExact (wordBytes nbits w) with
  | .ok i => some i
  | .error _ => none

end Sys2Proof
end

