-- ==== Sys2Proof/Machine/Codes.lean ====
section
/-! DEFINITION. The internal codes of Commands and directions (30_encoding.md R53, R54, R55). -/

namespace Sys2Proof.Machine

/-- The code of a Command in `MBX` (R53). -/
def commandCode : Instr → Nat
  | .idle => 0b000
  | .left => 0b001
  | .right => 0b010
  | .increaseSpeed => 0b011
  | .decreaseSpeed => 0b100
  | .stop => 0b101

/-- The Command a code stands for. The codes above 101, which are 110 and 111 in three bits,
stand for none (R54). -/
def commandOfCode : Nat → Option Instr
  | 0b000 => some .idle
  | 0b001 => some .left
  | 0b010 => some .right
  | 0b011 => some .increaseSpeed
  | 0b100 => some .decreaseSpeed
  | 0b101 => some .stop
  | _ => none

/-- The code of a direction, `{REV_EN, FWD_EN}` (R55). -/
def directionCode : Direction → Nat
  | .neutral => 0b00
  | .forward => 0b01
  | .reverse => 0b10

/-- The direction a code stands for. A code above 10, which is 11, both enables, in two
bits, stands for none (R55). -/
def directionOfCode : Nat → Option Direction
  | 0b00 => some .neutral
  | 0b01 => some .forward
  | 0b10 => some .reverse
  | _ => none

end Sys2Proof.Machine
end

