-- ==== Sys2Proof/Machine/State.lean ====
section
/-! DEFINITION. The state of the block (10_state.md R15), its ports as data, and the reasons a step can stop. -/

namespace Sys2Proof.Machine

/-- Everything the spec gives the block. `duty`, `dir`, `mbx` and `pwmCmp` are its whole state (R15); `config` is
constant (R27); `status` records the `STATUS` output; the last three fields are the environment's side of the ports. -/
structure State where
  /-- The parameters (00_scope.md R6). No event writes them (R27). Log entry 2. -/
  config : Config
  /-- `DUTY`: the duty counter, an unsigned integer of `DUTY_W` bits (R16). -/
  duty : Nat
  /-- `DIR`: the direction arbiter's code `{REV_EN, FWD_EN}`, of `DIR_W` bits (R19, R55). Log entry 1. -/
  dir : Nat
  /-- `MBX`: the mailbox's Command code, of `CMD_W` bits (R21, R53). Log entry 1. -/
  mbx : Nat
  /-- `PWM_CMP`: the value presented to the PWM compare register, of `DUTY_W` bits (R22). -/
  pwmCmp : Nat
  /-- The status codes emitted so far, each of `STATUS_W` bits, oldest first (00_scope.md R10, R12). Log entry 6. -/
  status : List Nat
  /-- `DIAG_IN`: the input level no rule reads (R24). Log entry 7. -/
  diagIn : Bool
  /-- The events still to come, oldest first (30_encoding.md R60). The model's own field, log entry 4. -/
  inputs : List Event
  /-- How many events were drawn from the free environment. The model's own field, log entry 4. -/
  drawn : Nat
deriving DecidableEq, Repr

/-- The model's faults. The hardware raises none (60_exceptions.md R103); each of these guards a state that no run
from RESET reaches. -/
inductive Fault where
  /-- Raised by a TICK whose take reads a code above 101, 110 or 111 in three bits (41_dispatch.md R86). Safe. -/
  | unreachableCommandCode
  /-- Raised by a TICK, and by a command, in a state whose `DIR` holds a code above 10, in two bits the short-circuit
  code 11 (30_encoding.md R55). Safe. -/
  | unreachableDirectionCode
  /-- Raised by a TICK, and by a command, in a state with `DUTY > TOP` (43_duty.md R102). Safe. -/
  | dutyOutOfRange
deriving DecidableEq, Repr

/-- The model's refusals. -/
inductive Refusal where
  /-- Raised by an arm of `exec` whose instruction has no meaning yet; no arm is left so. Safe. -/
  | notModelled (mnemonic : String)
  /-- Raised by every event and every command in a configuration that 00_scope.md R7 does not admit. Safe. -/
  | configNotAdmitted
  /-- Raised by every event and every command in a configuration whose widths cannot hold the codes of the spec's
  tables (00_scope.md R6; 30_encoding.md R49, R53, R55, R56), so that no code is given. Safe. Log entry 2. -/
  | codesDoNotFit
deriving DecidableEq, Repr

/-- The block right after RESET (10_state.md R30), with this hardware's parameters (00_scope.md R6). -/
def State.reset : State where
  config := Config.hardware
  duty := 0
  dir := directionCode Config.hardware.dirReset
  mbx := commandCode .idle
  pwmCmp := 0
  status := []
  diagIn := false
  inputs := []
  drawn := 0

end Sys2Proof.Machine
end

