-- ==== Sys2Proof/Machine/Flags.lean ====
section
/-! DEFINITION. The block has no flags or condition codes (10_state.md R26). What a taken command reports is its
status code (30_encoding.md R56, 41_dispatch.md R80). -/

namespace Sys2Proof.Machine

/-- `StatusOf(c)`: the code emitted for a taken command; none for Idle (R56, R80, R82). -/
def statusOf : Instr → Option Nat
  | .left => some 1
  | .right => some 2
  | .increaseSpeed => some 3
  | .decreaseSpeed => some 4
  | .stop => some 5
  | .idle => none

/-- The source's line that a status code names, less its newline (R56). The text itself is the external
collaborator's (00_scope.md R5); the codes 0, 6 and 7 name no line. -/
def statusLine : Nat → Option String
  | 1 => some "Going Left"
  | 2 => some "Going Right"
  | 3 => some "Increasing duty cycle"
  | 4 => some "Decreasing duty cycle"
  | 5 => some "Stopping..."
  | _ => none

end Sys2Proof.Machine
end

