-- ==== Sys2Proof/Machine/Operands.lean ====
section
/-! DEFINITION. What the commands read. No byte carries an operand (30_encoding.md R52): the duty commands read
`S.DUTY` and the constants `TOP` and `STEP` (43_duty.md R94, R95). -/

namespace Sys2Proof.Machine

/-- `S.DUTY <= TOP - STEP`: the increment fits (R94). `TOP - STEP` does not wrap where 00_scope.md R7 holds. -/
def incrementFits (s : State) : Bool := decide (s.duty ≤ s.config.top - s.config.step)

/-- `S.DUTY >= STEP`: the decrement fits (R95). -/
def decrementFits (s : State) : Bool := decide (s.config.step ≤ s.duty)

/-- The duty after `DoIncrease`: hold, not clamp, where the step does not fit (R94, R99). -/
def increasedDuty (s : State) : Nat := if incrementFits s then s.duty + s.config.step else s.duty

/-- The duty after `DoDecrease`: hold, not clamp, where the step does not fit (R95, R99). -/
def decreasedDuty (s : State) : Nat := if decrementFits s then s.duty - s.config.step else s.duty

end Sys2Proof.Machine
end

