-- ==== Sys2Proof/Machine/Ops.lean ====
section
/-! DEFINITION. The named operations on the state that events and commands share. The block has no exception to take
and none to return from (60_exceptions.md R103, R111, R112); its one interrupt is the RX event. -/

namespace Sys2Proof.Machine

/-! ## Writes of one element -/

/-- `S.DUTY <- d`. -/
def setDuty (d : Nat) (s : State) : State := { s with duty := d }

/-- `S.DIR <- d`, one update of both enables (42_direction.md R90). -/
def setDir (d : Direction) (s : State) : State := { s with dir := directionCode d }

/-- `MbxPublish(c)`: unconditional whole-code write (40_decoder_mailbox.md R65, 20_memory.md R36, R37). -/
def publish (c : Instr) (s : State) : State := { s with mbx := commandCode c }

/-- `S.PWM_CMP <- S.DUTY`, the unconditional push (41_dispatch.md R78, R79). -/
def pushPwm (s : State) : State := { s with pwmCmp := s.duty }

/-- `emit Status(StatusOf(c))` for a command that has a code, nothing for Idle (41_dispatch.md R80, R82). -/
def emitStatus (c : Instr) (s : State) : State :=
  match statusOf c with
  | some code => { s with status := s.status ++ [code] }
  | none => s

/-- Every element takes its reset value; no status code is emitted (70_reset_and_hazards.md R117, 10_state.md R30). -/
def resetRegisters (s : State) : State :=
  { s with duty := 0, dir := directionCode s.config.dirReset, mbx := commandCode .idle, pwmCmp := 0 }

/-! ## The mailbox's take -/

/-- `MbxTake()`: reads the whole code and, when it is not Idle, writes Idle, in one indivisible step
(40_decoder_mailbox.md R67, R68). An unreachable code is a fault (41_dispatch.md R86). -/
def take (s : State) : Except Fault (Instr × State) :=
  match commandOfCode s.mbx with
  | none => .error .unreachableCommandCode
  | some c => .ok (c, if c = .idle then s else publish .idle s)

/-- The exchange form of take (20_memory.md R45): `old <- S.MBX; S.MBX <- Idle; return old`. -/
def exchange (s : State) : Nat × State := (s.mbx, publish .idle s)

/-! ## Which configurations run -/

/-- Why the block does not run in a configuration: R7 does not admit it, or the spec's codes do not fit (log entry 2). -/
def configRefusal (c : Config) : Option Refusal :=
  if configAdmitted c = false then some .configNotAdmitted
  else if codesFit c = false then some .codesDoNotFit
  else none

/-! ## The rest of a TICK -/

/-- Steps 2, 3 and 4 of a TICK that took `c` (41_dispatch.md R73): the command's effect, its status code, the push.
Stops first in a configuration that does not run (log entry 2) and in a state that R55 or R102 gives no meaning (log
entry 5). -/
def finishTick (c : Instr) (effect : State → State) (s : State) : Host.Outcome State Fault Refusal :=
  match configRefusal s.config with
  | some r => .refused r
  | none =>
    match directionOfCode s.dir with
    | none => .fault .unreachableDirectionCode
    | some _ =>
      if s.config.top < s.duty then .fault .dutyOutOfRange
      else .next (pushPwm (emitStatus c (effect s)))

/-! ## Which event comes -/

/-- The head of the script, or the free environment's choice when the script is empty (00_scope.md R11, log entry 4). -/
def nextEvent (s : State) : Event :=
  match s.inputs with
  | e :: _ => e
  | [] => Config.environmentEvent s.drawn

/-- The state with that event consumed. -/
def advance (s : State) : State :=
  match s.inputs with
  | _ :: rest => { s with inputs := rest }
  | [] => { s with drawn := s.drawn + 1 }

/-- The first byte of a table word, its bits above `nbits` zero. -/
def wordByte (nbits w : Nat) : Nat := w % 2 ^ nbits % 256

/-- The state in which the very next event is the TICK that takes the command of this word (log entry 4). -/
def placeCommand (nbits w : Nat) (s : State) : State :=
  { publish (lut (received s.config (wordByte nbits w))) s with inputs := .tick :: s.inputs }

/-! ## Outcomes -/

/-- Applies a function to the next state, and keeps a stop. -/
def mapNext (f : State → State) :
    Host.Outcome State Fault Refusal → Host.Outcome State Fault Refusal
  | .next s => .next (f s)
  | .fault r => .fault r
  | .refused r => .refused r

end Sys2Proof.Machine
end

