-- ==== Sys2Proof/Machine/Direction.lean ====
section
/-! DEFINITION. The direction arbiter `DIR_ARB`: Left, Right, Stop (42_direction.md R87, R88, R89). -/

namespace Sys2Proof.Machine

/-- `S.DIR <- Forward` (R87). -/
def doLeft (s : State) : State := setDir .forward s

/-- `S.DIR <- Reverse` (R88). -/
def doRight (s : State) : State := setDir .reverse s

/-- `S.DIR <- Neutral`; `DUTY` is not written (R89). -/
def doStop (s : State) : State := setDir .neutral s

/-- Left: select Forward (R87). -/
def execLeft (s : State) : Host.Outcome State Fault Refusal := finishTick .left doLeft s

/-- Right: select Reverse (R88). -/
def execRight (s : State) : Host.Outcome State Fault Refusal := finishTick .right doRight s

/-- Stop: select Neutral, keep the duty (R89, R93). -/
def execStop (s : State) : Host.Outcome State Fault Refusal := finishTick .stop doStop s

end Sys2Proof.Machine
end

