-- ==== Sys2Proof/Machine/Duty.lean ====
section
/-! DEFINITION. The saturating duty counter `DUTY_CTR`: IncreaseSpeed, DecreaseSpeed (43_duty.md R94, R95). -/

namespace Sys2Proof.Machine

/-- `DoIncrease()` (R94). -/
def doIncrease (s : State) : State := setDuty (increasedDuty s) s

/-- `DoDecrease()` (R95). -/
def doDecrease (s : State) : State := setDuty (decreasedDuty s) s

/-- IncreaseSpeed: add `STEP` if the result stays at or below `TOP` (R94). -/
def execIncreaseSpeed (s : State) : Host.Outcome State Fault Refusal :=
  finishTick .increaseSpeed doIncrease s

/-- DecreaseSpeed: subtract `STEP` if the result stays at or above 0 (R95). -/
def execDecreaseSpeed (s : State) : Host.Outcome State Fault Refusal :=
  finishTick .decreaseSpeed doDecrease s

end Sys2Proof.Machine
end

