-- ==== Sys2Proof/Machine/Idle.lean ====
section
/-! DEFINITION. The meaning of Idle (41_dispatch.md R76). -/

namespace Sys2Proof.Machine

/-- `skip` (R76). -/
def doIdle (s : State) : State := s

/-- Idle: no effect and no status code; the TICK still pushes (R76, R79, R82). -/
def execIdle (s : State) : Host.Outcome State Fault Refusal := finishTick .idle doIdle s

end Sys2Proof.Machine
end

