-- ==== Sys2Proof/Machine/Dispatch.lean ====
section
/-! DEFINITION. One arm per Command (41_dispatch.md R75): what the rest of the TICK that took it does. -/

namespace Sys2Proof.Machine

def exec (i : Instr) (s : State) : Host.Outcome State Fault Refusal :=
  match i with
  | .left => Sys2Proof.Machine.execLeft s
  | .right => Sys2Proof.Machine.execRight s
  | .increaseSpeed => Sys2Proof.Machine.execIncreaseSpeed s
  | .decreaseSpeed => Sys2Proof.Machine.execDecreaseSpeed s
  | .stop => Sys2Proof.Machine.execStop s
  | .idle => Sys2Proof.Machine.execIdle s

end Sys2Proof.Machine
end

