-- ==== Sys2Proof/Machine/Events.lean ====
section
/-! DEFINITION. The three events (00_scope.md R11) and sequences of them. -/

namespace Sys2Proof.Machine

/-- `RX(b)`: `c <- LUT(b); MbxPublish(c)` (40_decoder_mailbox.md R62). An unrecognised byte publishes Idle (R63). -/
def handleRx (b : Nat) (s : State) : State := publish (lut (received s.config b)) s

/-- `TICK`: take, then the rest of the iteration for the command taken (41_dispatch.md R73). -/
def handleTick (s : State) : Host.Outcome State Fault Refusal :=
  match take s with
  | .error f => .fault f
  | .ok (c, s') => exec c s'

/-- One event, indivisible (R11). Refused in a configuration that does not run (00_scope.md R6, R7; log entry 2). -/
def handleEvent (e : Event) (s : State) : Host.Outcome State Fault Refusal :=
  match configRefusal s.config with
  | some r => .refused r
  | none =>
    match e with
    | .reset => .next (resetRegisters s)
    | .rx b => .next (handleRx b s)
    | .tick => handleTick s

/-- A sequence of events in order, up to the first stop (R11, 30_encoding.md R60). -/
def runEvents : List Event → State → Host.Outcome State Fault Refusal
  | [], s => .next s
  | e :: es, s =>
    match handleEvent e s with
    | .next s' => runEvents es s'
    | .fault r => .fault r
    | .refused r => .refused r

/-- `cmd X`: `rx X` followed at once by `tick` (30_encoding.md R61). -/
def cmd (b : Nat) : List Event := [.rx b, .tick]

/-- `cmd X * n`: `n` copies of `cmd X` (R61). -/
def cmdTimes (b : Nat) : Nat → List Event
  | 0 => []
  | n + 1 => cmd b ++ cmdTimes b n

end Sys2Proof.Machine
end

