-- ==== Sys2Proof/Machine/Step.lean ====
section
/-! DEFINITION. One step: the next event happens. -/

namespace Sys2Proof.Machine

/-- One step is one event: the head of the script, or the free environment's choice (00_scope.md R11). -/
def step (s : State) : Host.Outcome State Fault Refusal := handleEvent (nextEvent s) (advance s)

/-- The state whose very next step runs the command of this word (log entry 4). -/
def State.withFetchWord (s : State) (nbits w : Nat) : State := placeCommand nbits w s

end Sys2Proof.Machine
end

