-- ==== Sys2Proof/Machine/EnumForm.lean ====
section
/-! DEFINITION. The block in the spec's enumeration form (10_state.md R15, R19; 90_conflicts.md C3), in which a bad
code cannot be written down: the design that the code-level machine is stated to refine. Nothing else uses it. -/

namespace Sys2Proof.Machine

/-- The four elements of R15 with their enumerated types. -/
structure EnumState where
  duty : Nat
  dir : Direction
  mbx : Instr
  pwmCmp : Nat
deriving DecidableEq, Repr

/-- Step 2 of the TICK, exactly one arm per command (41_dispatch.md R73, R75). -/
def enumEffect (cfg : Config) (a : EnumState) : EnumState :=
  match a.mbx with
  | .left => { a with dir := .forward }
  | .right => { a with dir := .reverse }
  | .increaseSpeed => if a.duty + cfg.step ≤ cfg.top then { a with duty := a.duty + cfg.step } else a
  | .decreaseSpeed => if cfg.step ≤ a.duty then { a with duty := a.duty - cfg.step } else a
  | .stop => { a with dir := .neutral }
  | .idle => a

/-- One event: the state after it and the commands whose status it emits (R11, R62, R73, R117). -/
def enumEvent (cfg : Config) (e : Event) (a : EnumState) : EnumState × List Instr :=
  match e with
  | .reset => (⟨0, cfg.dirReset, .idle, 0⟩, [])
  | .rx b => ({ a with mbx := lut (received cfg b) }, [])
  | .tick =>
    ({ enumEffect cfg a with mbx := .idle, pwmCmp := (enumEffect cfg a).duty },
      if a.mbx = .idle then [] else [a.mbx])

/-- A sequence of events, and the commands whose status it emits, in order. -/
def enumRun (cfg : Config) : List Event → EnumState → EnumState × List Instr
  | [], a => (a, [])
  | e :: es, a =>
    ((enumRun cfg es (enumEvent cfg e a).1).1, (enumEvent cfg e a).2 ++ (enumRun cfg es (enumEvent cfg e a).1).2)

/-- The code-level state holds the codes of the enumerated one. -/
abbrev represents (a : EnumState) (s : State) : Prop :=
  s.duty = a.duty ∧ s.dir = directionCode a.dir ∧ s.mbx = commandCode a.mbx ∧ s.pwmCmp = a.pwmCmp

end Sys2Proof.Machine
end

