-- ==== Sys2Proof/Machine/Ports.lean ====
section
/-! DEFINITION. The output ports (10_state.md R20, R22, R23, R25) and what an observer sees between events
(00_scope.md R12). -/

namespace Sys2Proof.Machine

/-- `FWD_EN`: bit 0 of the direction code (R20, R55). -/
def fwdEn (s : State) : Bool := s.dir.testBit 0

/-- `REV_EN`: bit 1 of the direction code (R20, R55). -/
def revEn (s : State) : Bool := s.dir.testBit 1

/-- The `PWM_CMP` port, `DUTY_W` bits wide (R23, 20_memory.md R34). -/
def pwmPort (s : State) : BitVec s.config.dutyW := BitVec.ofNat s.config.dutyW s.pwmCmp

/-- The codes as they pass the `STATUS` port, each `STATUS_W` bits wide (R23). -/
def statusPort (s : State) : List (BitVec s.config.statusW) := s.status.map (BitVec.ofNat s.config.statusW)

/-- The two logical states of the PWM output (R25). This Idle is not the Command Idle. -/
inductive PwmLogical where
  | idle    -- `PWM_CMP == 0`
  | running -- `0 < PWM_CMP <= TOP`
deriving DecidableEq, Repr

/-- The PWM logical state, a function of `PWM_CMP`; none above `TOP`, where R25 names no state. -/
def pwmLogical (s : State) : Option PwmLogical :=
  if s.pwmCmp = 0 then some .idle
  else if s.pwmCmp ≤ s.config.top then some .running
  else none

/-- A pending command is a non-Idle value in `MBX` (10_state.md R21, 60_exceptions.md R108). -/
def pending (s : State) : Bool := s.mbx != commandCode .idle

/-- What an observer sees between events: the two enables, the compare value and the status stream (R12). -/
structure Observation where
  fwd : Bool
  rev : Bool
  pwm : Nat
  codes : List Nat
deriving DecidableEq, Repr

/-- The observation of a state. -/
def observe (s : State) : Observation := ⟨fwdEn s, revEn s, s.pwmCmp, s.status⟩

end Sys2Proof.Machine
end

