-- ==== Sys2Proof/Safety.lean ====
section
/-! DEFINITION. What counts as a safe state and a safe run, and the spec's history formulas over event sequences. -/

namespace Sys2Proof.Machine

/-- A command can execute: the block runs in the configuration (00_scope.md R6, R7), `DIR` holds one of its three codes
(30_encoding.md R55) and `DUTY <= TOP` (10_state.md R17). -/
abbrev State.Ready (s : State) : Prop :=
  configRuns s.config = true ∧ s.dir < 3 ∧ s.duty ≤ s.config.top

/-- The invariants that hold between any two events (10_state.md R32): `DUTY <= TOP`, `PWM_CMP == DUTY`,
`not (FWD_EN and REV_EN)`, and `MBX` is one of the six Command values; `DIR` is one of its three values (R15); in a
configuration in which the block runs. -/
abbrev State.Inv (s : State) : Prop :=
  configRuns s.config = true ∧ s.duty ≤ s.config.top ∧ s.pwmCmp = s.duty ∧
    (fwdEn s && revEn s) = false ∧ s.dir < 3 ∧ s.mbx < 6

/-- `DUTY` is a multiple of `STEP` (10_state.md R31). -/
abbrev State.OnGrid (s : State) : Prop := s.duty % s.config.step = 0

/-- The state after power-up in a given configuration: a RESET has happened and nothing else. -/
def resetIn (cfg : Config) : State := resetRegisters { State.reset with config := cfg }

/-- What a take after these events returns, by the formula of 20_memory.md R41: the command of the last publish if it
comes after the last take and after the last RESET, and Idle otherwise. -/
def takenAfter (cfg : Config) : List Event → Instr
  | [] => .idle
  | [.rx b] => lut (received cfg b)
  | [.tick] => .idle
  | [.reset] => .idle
  | _ :: e :: es => takenAfter cfg (e :: es)

/-- The commands that are applied in a sequence of events that starts with an empty mailbox: those of the bytes whose
RX is followed by a TICK with no event between (20_memory.md R42, R43; 40_decoder_mailbox.md R70). -/
def appliedCommands (cfg : Config) : List Event → List Instr
  | [] => []
  | .rx b :: .tick :: es => lut (received cfg b) :: appliedCommands cfg es
  | _ :: es => appliedCommands cfg es

/-- The number of bytes received that stand for a command other than Idle. -/
def commandBytes (cfg : Config) : List Event → Nat
  | [] => 0
  | .rx b :: es => (if lut (received cfg b) = .idle then 0 else 1) + commandBytes cfg es
  | _ :: es => commandBytes cfg es

/-- The first `n` events of an infinite execution. -/
def firstEvents (env : Nat → Event) (n : Nat) : List Event := (List.range n).map env

/-- The fairness premise (41_dispatch.md R84): infinitely many TICKs. -/
def FairTicks (env : Nat → Event) : Prop := ∀ n, ∃ m, n ≤ m ∧ env m = .tick

end Sys2Proof.Machine
end

