-- ==== Sys2Proof/Certificates/Slice0/Obligations.lean ====
section
/-! DEFINITION. The statements about the block, for the provers. -/

open Sys2Proof Sys2Proof.Machine

/-! ## Encoding -/

/-- 30_encoding.md R50: the five command bytes, all eight bits compared, and Idle for every other byte, the examples of
the rule among them. The byte values and the exact compare are the spec's (log entry 9). -/
def Obligations.LookupTableOfTheDecoder : Prop :=
  lut 0x6C = .left ∧ lut 0x72 = .right ∧ lut 0x70 = .increaseSpeed ∧ lut 0x6D = .decreaseSpeed ∧
    lut 0x73 = .stop ∧
    (∀ b : Nat, b ≠ 0x6C → b ≠ 0x72 → b ≠ 0x70 → b ≠ 0x6D → b ≠ 0x73 → lut b = .idle) ∧
    lut 0x4C = .idle ∧ lut 0xEC = .idle ∧ lut 0xF0 = .idle

/-- 30_encoding.md R57: no byte is illegal; of this hardware's 256 bytes 251 are Idle, and each other command has one
byte only. -/
def Obligations.NoByteIsIllegalAndIdleHas251 : Prop :=
  (∀ b : Nat, decodeExact [b] = .ok (lut b)) ∧
    ((List.range 256).filter fun n => decide (lut n = .idle)).length = 251 ∧
    ∀ b : Nat, lut b ≠ .idle → encode (lut b) = [b]

/-- Decode after encode is the command, whatever bytes follow (30_encoding.md R51, R59). The byte written for Idle is
the model's choice, log entry 8. -/
def Obligations.DecodeOfEncodeIsTheCommand : Prop :=
  ∀ i : Instr, i.wellFormed = true →
    decodeExact (encode i) = .ok i ∧ ∀ rest, decode (encode i ++ rest) = .ok (i, rest)

/-- A stream of commands is read back from its bytes, one byte a command; and a stream of bytes of commands other than
Idle is written back (30_encoding.md R51, R59, R60). -/
def Obligations.CommandStreamsRoundTrip : Prop :=
  (∀ is : List Instr, decodeAll (encodeAll is) = is ∧ (encodeAll is).length = is.length) ∧
    ∀ bs : List Nat, (∀ b ∈ bs, lut b ≠ .idle) → encodeAll (decodeAll bs) = bs

/-- The words of the opcode table, written out, decode to their rows (30_encoding.md R49), and 'z' to Idle (R50). The
numeric byte values are the spec's general knowledge, which the model takes over: PRESUMED, log entry 9. -/
def Obligations.TableWordsDecodeToTheirRows : Prop :=
  decodeTableWord 8 0b01101100 = some .left ∧ decodeTableWord 8 0b01110010 = some .right ∧
    decodeTableWord 8 0b01110000 = some .increaseSpeed ∧ decodeTableWord 8 0b01101101 = some .decreaseSpeed ∧
    decodeTableWord 8 0b01110011 = some .stop ∧ decodeTableWord 8 0b01111010 = some .idle

/-- The Command and direction codes are those of the tables of 30_encoding.md R53 and R55, are read back by name, and
the codes 110, 111 (R54) and 11 (R55), and any above in a wider register (log entry 2), stand for nothing. The codes are
the spec's own decisions D4 and D5. -/
def Obligations.InternalCodesReadBack : Prop :=
  (commandCode .idle = 0b000 ∧ commandCode .left = 0b001 ∧ commandCode .right = 0b010 ∧
    commandCode .increaseSpeed = 0b011 ∧ commandCode .decreaseSpeed = 0b100 ∧ commandCode .stop = 0b101) ∧
    (directionCode .neutral = 0b00 ∧ directionCode .forward = 0b01 ∧ directionCode .reverse = 0b10) ∧
    (∀ c i, commandOfCode c = some i ↔ c = commandCode i) ∧
    (commandOfCode 0b110 = none ∧ commandOfCode 0b111 = none ∧ ∀ c, commandOfCode c = none ↔ 0b101 < c) ∧
    (∀ d x, directionOfCode d = some x ↔ d = directionCode x) ∧
    directionOfCode 0b11 = none ∧ ∀ d, directionOfCode d = none ↔ 0b10 < d

/-- 30_encoding.md R56: the status codes and the lines they name; each equals the Command code that emits it; no line
and no code for Idle; 0, 6 and 7 are never a status code. The codes are the spec's own decision D6. -/
def Obligations.StatusCodesNameTheirLines : Prop :=
  statusOf .left = some 1 ∧ statusOf .right = some 2 ∧ statusOf .increaseSpeed = some 3 ∧
    statusOf .decreaseSpeed = some 4 ∧ statusOf .stop = some 5 ∧ statusOf .idle = none ∧
    statusLine 1 = some "Going Left" ∧ statusLine 2 = some "Going Right" ∧
    statusLine 3 = some "Increasing duty cycle" ∧ statusLine 4 = some "Decreasing duty cycle" ∧
    statusLine 5 = some "Stopping..." ∧
    (∀ i c, statusOf i = some c → c = commandCode i) ∧
    ∀ c, (c = 0 ∨ c = 6 ∨ c = 7) → statusLine c = none ∧ ∀ i, statusOf i ≠ some c

/-! ## Ports -/

/-- 10_state.md R20: the enables are functions of `DIR` alone, and never both asserted. -/
def Obligations.EnablesAreFunctionsOfDir : Prop :=
  ∀ (s : State) (d : Direction), s.dir = directionCode d →
    fwdEn s = decide (d = .forward) ∧ revEn s = decide (d = .reverse) ∧ ¬(fwdEn s = true ∧ revEn s = true)

/-- 10_state.md R25: the PWM logical state is Idle at 0 and Running in `1..TOP`, and depends on nothing but `PWM_CMP`
and the constant `TOP`. -/
def Obligations.PwmLogicalStateIsDerived : Prop :=
  (∀ s : State, s.pwmCmp = 0 → pwmLogical s = some .idle) ∧
    (∀ s : State, 0 < s.pwmCmp → s.pwmCmp ≤ s.config.top → pwmLogical s = some .running) ∧
    ∀ s t : State, s.pwmCmp = t.pwmCmp → s.config.top = t.config.top → pwmLogical s = pwmLogical t

/-- 10_state.md R16, R22: in a legal state `DUTY` fits its width and the port shows it whole. -/
def Obligations.PwmPortShowsTheDuty : Prop :=
  ∀ s : State, s.Inv → s.duty < 2 ^ s.config.dutyW ∧ (pwmPort s).toNat = s.duty

/-- 10_state.md R15, 00_scope.md R6: in a legal state each element fits the width its parameter gives it. -/
def Obligations.LegalElementsFitTheirWidths : Prop :=
  ∀ s : State, s.Inv → s.duty < 2 ^ s.config.dutyW ∧ s.dir < 2 ^ s.config.dirW ∧ s.mbx < 2 ^ s.config.cmdW ∧
    s.pwmCmp < 2 ^ s.config.dutyW

/-- 10_state.md R28: in legal states, what an observer sees fixes `DUTY`, `DIR` and `PWM_CMP`; and
in every state it shows nothing of `MBX`. -/
def Obligations.ObservationHidesOnlyTheMailbox : Prop :=
  (∀ s t : State, s.Inv → t.Inv → observe s = observe t →
    s.duty = t.duty ∧ s.dir = t.dir ∧ s.pwmCmp = t.pwmCmp ∧ s.status = t.status) ∧
    ∀ (s : State) (c : Nat), observe { s with mbx := c } = observe s

/-- 10_state.md R24: the level of `DIAG_IN` has no effect on any state or output. -/
def Obligations.DiagInNeverMatters : Prop :=
  ∀ (s : State) (level : Bool),
    step { s with diagIn := level } = mapNext (fun t => { t with diagIn := level }) (step s) ∧
      observe { s with diagIn := level } = observe s

/-! ## Reset and configuration -/

/-- `State.reset` holds the values of 10_state.md R30 with the parameters of 00_scope.md R6. `DIR`, `MBX` and
`PWM_CMP` are the spec's own decisions D7, D8 and D9 (log entry 3). -/
def Obligations.ResetStateHoldsTheResetValues : Prop :=
  State.reset.duty = 0 ∧ State.reset.dir = 0b00 ∧ State.reset.mbx = 0b000 ∧ State.reset.pwmCmp = 0 ∧
    State.reset.status = [] ∧ fwdEn State.reset = false ∧ revEn State.reset = false ∧
    State.reset.config = { top := 200, step := 10, dutyW := 8, byteW := 8, cmdW := 3, dirW := 2, statusW := 3,
                           dirReset := .neutral }

/-- A RESET event at any point sets every element to its reset value and emits nothing (70_reset_and_hazards.md R117,
R118), so two states of one configuration hold the same registers after it. Log entries 3, 4 and 6: the value of `DIR`
is the parameter `DIR_RESET`, and the stream and the script are left. -/
def Obligations.ResetEventSetsEveryElement : Prop :=
  ∀ s : State, configRuns s.config = true →
    handleEvent .reset s =
      .next { s with duty := 0, dir := directionCode s.config.dirReset, mbx := 0b000, pwmCmp := 0 }

/-- A command pending at a RESET is lost and emits no code (70_reset_and_hazards.md R119): the TICK after the RESET finds
nothing, whatever the mailbox held, an unreachable code among it. -/
def Obligations.PendingCommandIsLostAtReset : Prop :=
  ∀ s : State, configRuns s.config = true →
    runEvents [.reset, .tick] s =
      .next { s with duty := 0, dir := directionCode s.config.dirReset, mbx := 0b000, pwmCmp := 0 }

/-- 00_scope.md R7 (the spec's own decision D3): the admitted configurations are those of the three inequalities; in any
other one every event, every command and every step is refused. -/
def Obligations.UnadmittedConfigurationIsRefused : Prop :=
  (∀ c : Config, configAdmitted c = true ↔ 1 ≤ c.step ∧ c.step ≤ c.top ∧ c.top ≤ 2 ^ c.dutyW - 1) ∧
    ∀ s : State, configAdmitted s.config = false →
      step s = .refused .configNotAdmitted ∧ (∀ e, handleEvent e s = .refused .configNotAdmitted) ∧
        ∀ i, exec i s = .refused .configNotAdmitted

/-- The widths of 00_scope.md R6 are arguments: the block runs in an admitted configuration exactly when they hold the
codes of the spec's tables, and this hardware's do; where they do not, the model refuses, its own choice (log entry 2). -/
def Obligations.WidthsThatHoldTheCodesRun : Prop :=
  (∀ c : Config, configRuns c = true ↔ configAdmitted c = true ∧
      (∀ i, commandByte i ≤ 2 ^ c.byteW - 1 ∧ commandCode i ≤ 2 ^ c.cmdW - 1) ∧
      (∀ d, directionCode d ≤ 2 ^ c.dirW - 1) ∧ ∀ i code, statusOf i = some code → code ≤ 2 ^ c.statusW - 1) ∧
    configRuns Config.hardware = true ∧
    ∀ s : State, configAdmitted s.config = true → configRuns s.config = false →
      step s = .refused .codesDoNotFit ∧ (∀ e, handleEvent e s = .refused .codesDoNotFit) ∧
        ∀ i, exec i s = .refused .codesDoNotFit

/-- 10_state.md R23: the `STATUS` port carries every code whole, in every stream that starts with codes below 6, and a
step keeps it so; the `RX` port carries a byte of `BYTE_W` bits whole, and nothing wider. -/
def Obligations.PortsCarryTheirValuesWhole : Prop :=
  (∀ s t : State, (∀ code ∈ s.status, code < 6) → step s = .next t →
      (∀ code ∈ t.status, code < 6) ∧ (statusPort t).map BitVec.toNat = t.status) ∧
    (∀ (c : Config) (b : Nat), b < 2 ^ c.byteW → received c b = b) ∧
    ∀ (c : Config) (b : Nat), received c b < 2 ^ c.byteW

/-- 10_state.md R27: no step writes the parameters; and a step consumes the head of the script and nothing more of it
(log entry 4). -/
def Obligations.NoStepWritesTheConfiguration : Prop :=
  ∀ s t : State, step s = .next t →
    t.config = s.config ∧ t.inputs = s.inputs.tail ∧ t.diagIn = s.diagIn

/-! ## The step -/

/-- The step runs the fetched command: with a byte's command in the mailbox and a TICK next, the step is `exec` of the
command the decoder reads, over the emptied mailbox (log entry 4). Where `BYTE_W` is below 8, the byte is what the port
receives of it (log entry 2). -/
def Obligations.StepRunsTheFetchedCommand : Prop :=
  ∀ (s : State) (b : Nat), configRuns s.config = true → b < 256 →
    decodeTableWord 8 b = some (lut b) ∧
      step (s.withFetchWord 8 b) = exec (lut (received s.config b)) { s with mbx := 0b000 } ∧
      (8 ≤ s.config.byteW → step (s.withFetchWord 8 b) = exec (lut b) { s with mbx := 0b000 })

/-- The step handles the next event: the head of the script, consumed, or the free environment's choice when there is
no script (00_scope.md R11; log entry 4). -/
def Obligations.StepHandlesTheNextEvent : Prop :=
  (∀ (s : State) (e : Event) (rest : List Event), s.inputs = e :: rest →
      step s = handleEvent e { s with inputs := rest }) ∧
    ∀ s : State, s.inputs = [] →
      step s = handleEvent (Config.environmentEvent s.drawn) { s with drawn := s.drawn + 1 }

/-- A TICK takes the mailbox and executes what it took (41_dispatch.md R73). -/
def Obligations.TickExecutesTheTakenCommand : Prop :=
  ∀ (s : State) (c : Instr), configRuns s.config = true → s.mbx = commandCode c →
    handleEvent .tick s = exec c { s with mbx := 0b000 }

/-! ## Decoder and mailbox -/

/-- 40_decoder_mailbox.md R62, R64, R65: RX publishes the looked-up command, overwriting what the mailbox held, and
writes nothing else. A byte of `BYTE_W` bits is looked up as it is. -/
def Obligations.RxPublishesAndWritesNothingElse : Prop :=
  ∀ (s : State) (b : Nat), configRuns s.config = true →
    handleEvent (.rx b) s = .next { s with mbx := commandCode (lut (received s.config b)) } ∧
      (b < 2 ^ s.config.byteW → handleEvent (.rx b) s = .next { s with mbx := commandCode (lut b) })

/-- 40_decoder_mailbox.md R63: an unrecognised byte publishes Idle over a pending command, and the TICK that takes it
changes neither `DUTY` nor `DIR` and emits nothing. -/
def Obligations.UnrecognisedByteClobbersThePendingCommand : Prop :=
  ∀ (s : State) (b : Nat), s.Ready → lut (received s.config b) = .idle →
    handleEvent (.rx b) s = .next { s with mbx := 0b000 } ∧
      runEvents [.rx b, .tick] s = .next { s with mbx := 0b000, pwmCmp := s.duty }

/-- 40_decoder_mailbox.md R67, R68 and 20_memory.md R45: take returns the command and leaves Idle; it agrees with the
unconditional exchange; over an Idle mailbox it writes nothing. -/
def Obligations.TakeIsAnExchangeWithIdle : Prop :=
  ∀ (s : State) (c : Instr), s.mbx = commandCode c →
    take s = .ok (c, { s with mbx := 0b000 }) ∧ exchange s = (commandCode c, { s with mbx := 0b000 }) ∧
      (c = .idle → take s = .ok (.idle, s))

/-- 20_memory.md R43: two bytes with no TICK between leave only the second code in the mailbox, and the first has no
effect and no status, whatever follows. -/
def Obligations.LastWriteWins : Prop :=
  ∀ (s : State) (a b : Nat), configRuns s.config = true →
    runEvents [.rx a, .rx b] s = .next { s with mbx := commandCode (lut (received s.config b)) } ∧
      ∀ es, runEvents (.rx a :: .rx b :: es) s = runEvents (.rx b :: es) s

/-- Both orders of an RX and a TICK that coincide complete (20_memory.md R40, R42): the TICK after the RX executes its
command; the TICK before it does not see it and leaves it pending. -/
def Obligations.BothOrdersOfRxAndTickComplete : Prop :=
  ∀ (s : State) (b : Nat), s.Ready → s.mbx = 0b000 →
    runEvents [.rx b, .tick] s = exec (lut (received s.config b)) s ∧
      runEvents [.tick, .rx b] s = .next { s with mbx := commandCode (lut (received s.config b)), pwmCmp := s.duty } ∧
      ∃ t, exec (lut (received s.config b)) s = .next t

/-- 20_memory.md R41: after any events, a take returns the command of the last publish if that came after the last take
and the last RESET, and Idle otherwise. -/
def Obligations.TakeReturnsTheLatestPublish : Prop :=
  ∀ (es : List Event) (s : State), s.Inv → s.mbx = 0b000 →
    ∃ t u, runEvents es s = .next t ∧ take t = .ok (takenAfter s.config es, u)

/-- 40_decoder_mailbox.md R69: once a TICK has taken the mailbox, further TICKs change nothing and emit nothing. -/
def Obligations.DrainedMailboxStaysQuiet : Prop :=
  ∀ (s t : State) (n : Nat), handleEvent .tick s = .next t →
    runEvents (List.replicate n .tick) t = .next t

/-- The status stream of a run is that of the commands whose RX is followed by a TICK with no event between
(20_memory.md R42, R43; 40_decoder_mailbox.md R70; 41_dispatch.md R80, R82). -/
def Obligations.StatusStreamIsTheAppliedCommands : Prop :=
  ∀ (es : List Event) (s : State), s.Inv → s.mbx = 0b000 →
    ∃ t, runEvents es s = .next t ∧ t.status = s.status ++ (appliedCommands s.config es).filterMap statusOf

/-- 40_decoder_mailbox.md R70: a published command is taken at most once, so no run emits more codes than it received
command bytes, beyond the one a command pending at its start may emit. -/
def Obligations.EachPublishIsTakenAtMostOnce : Prop :=
  ∀ (es : List Event) (s t : State), runEvents es s = .next t →
    t.status.length ≤ s.status.length + (if s.mbx = 0b000 then 0 else 1) + commandBytes s.config es

/-! ## Commands: results -/

/-- 42_direction.md R87, whole: Left's byte and code, and its result in every state in which a command can execute. -/
def Obligations.LeftSelectsForward : Prop :=
  lut 0x6C = .left ∧ commandCode .left = 0b001 ∧
    ∀ s : State, s.Ready → ∃ t, exec .left s = .next t ∧
      t = { s with dir := 0b01, status := s.status ++ [1], pwmCmp := s.duty } ∧
      fwdEn t = true ∧ revEn t = false

/-- 42_direction.md R88, whole. -/
def Obligations.RightSelectsReverse : Prop :=
  lut 0x72 = .right ∧ commandCode .right = 0b010 ∧
    ∀ s : State, s.Ready → ∃ t, exec .right s = .next t ∧
      t = { s with dir := 0b10, status := s.status ++ [2], pwmCmp := s.duty } ∧
      fwdEn t = false ∧ revEn t = true

/-- 42_direction.md R89, whole: the duty is kept and still pushed. -/
def Obligations.StopSelectsNeutralAndKeepsTheDuty : Prop :=
  lut 0x73 = .stop ∧ commandCode .stop = 0b101 ∧
    ∀ s : State, s.Ready → ∃ t, exec .stop s = .next t ∧
      t = { s with dir := 0b00, status := s.status ++ [5], pwmCmp := s.duty } ∧
      fwdEn t = false ∧ revEn t = false

/-- 43_duty.md R94, whole: add `STEP` where it fits, else hold; the status is emitted either way. -/
def Obligations.IncreaseSpeedAddsStepOrHolds : Prop :=
  lut 0x70 = .increaseSpeed ∧ commandCode .increaseSpeed = 0b011 ∧
    ∀ s : State, s.Ready →
      (s.duty ≤ s.config.top - s.config.step →
        s.duty + s.config.step ≤ s.config.top ∧
        exec .increaseSpeed s = .next { s with duty := s.duty + s.config.step, status := s.status ++ [3],
                                               pwmCmp := s.duty + s.config.step }) ∧
      (s.config.top - s.config.step < s.duty →
        exec .increaseSpeed s = .next { s with status := s.status ++ [3], pwmCmp := s.duty })

/-- 43_duty.md R95, whole: subtract `STEP` where it fits, else hold; the status is emitted either way. -/
def Obligations.DecreaseSpeedSubtractsStepOrHolds : Prop :=
  lut 0x6D = .decreaseSpeed ∧ commandCode .decreaseSpeed = 0b100 ∧
    ∀ s : State, s.Ready →
      (s.config.step ≤ s.duty →
        exec .decreaseSpeed s = .next { s with duty := s.duty - s.config.step, status := s.status ++ [4],
                                               pwmCmp := s.duty - s.config.step }) ∧
      (s.duty < s.config.step →
        exec .decreaseSpeed s = .next { s with status := s.status ++ [4], pwmCmp := s.duty })

/-- 41_dispatch.md R76, whole: every byte that is no command byte and an empty mailbox give Idle; it writes only the
push, which in a legal state changes nothing. -/
def Obligations.IdleHasNoEffect : Prop :=
  commandCode .idle = 0b000 ∧
    (∀ b : Nat, b ≠ 0x6C → b ≠ 0x72 → b ≠ 0x70 → b ≠ 0x6D → b ≠ 0x73 → lut b = .idle) ∧
    (∀ s : State, s.mbx = 0b000 → take s = .ok (.idle, s)) ∧
    (∀ s : State, s.Ready → exec .idle s = .next { s with pwmCmp := s.duty }) ∧
    ∀ s : State, s.Inv → exec .idle s = .next s

/-- 43_duty.md R97: at `TOP`, any number of increments leaves `TOP`; each still emits its code. -/
def Obligations.IncreaseSaturatesAtTop : Prop :=
  ∀ (n : Nat) (s : State), s.Ready → s.duty = s.config.top →
    ∃ t, runEvents (cmdTimes 0x70 n) s = .next t ∧ t.duty = t.config.top ∧ t.config = s.config ∧
      t.dir = s.dir ∧ t.status = s.status ++ List.replicate n 3

/-- 43_duty.md R98: at 0, any number of decrements leaves 0; each still emits its code. -/
def Obligations.DecreaseSaturatesAtZero : Prop :=
  ∀ (n : Nat) (s : State), s.Ready → s.duty = 0 →
    ∃ t, runEvents (cmdTimes 0x6D n) s = .next t ∧ t.duty = 0 ∧
      t.dir = s.dir ∧ t.status = s.status ++ List.replicate n 4

/-- After Stop, a later Left or Right resumes at the kept duty, and a duty change while Neutral is still pushed
(42_direction.md R93; 43_duty.md R101; 70_reset_and_hazards.md R127). -/
def Obligations.ResumeAfterStopKeepsTheDuty : Prop :=
  ∀ s : State, s.Ready →
    (∃ t, runEvents (cmd 0x73 ++ cmd 0x6C) s = .next t ∧ t.duty = s.duty ∧ t.pwmCmp = s.duty ∧ t.dir = 0b01) ∧
    (∃ t, runEvents (cmd 0x73 ++ cmd 0x72) s = .next t ∧ t.duty = s.duty ∧ t.pwmCmp = s.duty ∧ t.dir = 0b10) ∧
    ∃ t, runEvents (cmd 0x73 ++ cmd 0x70) s = .next t ∧ t.pwmCmp = t.duty ∧ t.dir = 0b00 ∧
      (s.duty ≤ s.config.top - s.config.step → t.pwmCmp = s.duty + s.config.step)

/-! ## Commands: frames -/

/-- The frame of Left, Right and Stop (42_direction.md R87, R88, R89): `DIR`, the status stream and `PWM_CMP` may change,
nothing else does; the stream grows by the command's own code. -/
def Obligations.DirectionCommandsFrame : Prop :=
  ∀ (i : Instr) (s t : State), (i = .left ∨ i = .right ∨ i = .stop) → exec i s = .next t →
    t.duty = s.duty ∧ t.mbx = s.mbx ∧ t.config = s.config ∧ t.diagIn = s.diagIn ∧ t.inputs = s.inputs ∧
      t.drawn = s.drawn ∧ t.pwmCmp = s.duty ∧ t.status = s.status ++ [commandCode i]

/-- The frame of IncreaseSpeed and DecreaseSpeed (43_duty.md R94, R95, R101): `DUTY`, the status stream and `PWM_CMP` may
change, nothing else does; the duty moves by `STEP` or not at all. -/
def Obligations.DutyCommandsFrame : Prop :=
  ∀ (i : Instr) (s t : State), (i = .increaseSpeed ∨ i = .decreaseSpeed) → exec i s = .next t →
    t.dir = s.dir ∧ t.mbx = s.mbx ∧ t.config = s.config ∧ t.diagIn = s.diagIn ∧ t.inputs = s.inputs ∧
      t.drawn = s.drawn ∧ t.pwmCmp = t.duty ∧ t.status = s.status ++ [commandCode i] ∧
      (t.duty = s.duty ∨ (i = .increaseSpeed ∧ t.duty = s.duty + s.config.step) ∨
        (i = .decreaseSpeed ∧ t.duty + s.config.step = s.duty))

/-- The frame of Idle (41_dispatch.md R76, R79): only `PWM_CMP` may change. -/
def Obligations.IdleFrame : Prop :=
  ∀ s t : State, exec .idle s = .next t →
    t.duty = s.duty ∧ t.dir = s.dir ∧ t.mbx = s.mbx ∧ t.config = s.config ∧ t.status = s.status ∧
      t.diagIn = s.diagIn ∧ t.inputs = s.inputs ∧ t.drawn = s.drawn

/-! ## Whole-machine rules -/

/-- 41_dispatch.md R74: a TICK changes at most one of `DIR` and `DUTY` and emits at most one code; its take leaves
nothing pending (60_exceptions.md R108). -/
def Obligations.TickChangesAtMostOneOfDirAndDuty : Prop :=
  ∀ s t : State, handleEvent .tick s = .next t →
    (t.dir = s.dir ∨ t.duty = s.duty) ∧ t.mbx = 0b000 ∧ pending t = false ∧
      (t.status = s.status ∨ ∃ code, t.status = s.status ++ [code])

/-- 41_dispatch.md R78, R79: every TICK pushes the duty it ends with, in `[0, TOP]`, whatever the command and the
direction. -/
def Obligations.EveryTickPushesTheDuty : Prop :=
  ∀ s t : State, handleEvent .tick s = .next t → t.pwmCmp = t.duty ∧ t.pwmCmp ≤ t.config.top

/-- 41_dispatch.md R81, R82: a TICK emits exactly the code of the command it takes, whether or not the state changes,
and nothing for Idle. -/
def Obligations.TickEmitsTheCodeOfTheTakenCommand : Prop :=
  ∀ (s t : State) (c : Instr), s.mbx = commandCode c → handleEvent .tick s = .next t →
    (c ≠ .idle → t.status = s.status ++ [commandCode c]) ∧ (c = .idle → t.status = s.status)

/-- 10_state.md R18 and 42_direction.md R91: apart from RESET, only a TICK that takes a duty command changes `DUTY`, and
only a TICK that takes a direction command changes `DIR`. -/
def Obligations.OnlyItsOwnCommandsWriteEachRegister : Prop :=
  ∀ s t : State, step s = .next t → nextEvent s ≠ .reset →
    (t.duty ≠ s.duty → nextEvent s = .tick ∧ (s.mbx = 0b011 ∨ s.mbx = 0b100)) ∧
    (t.dir ≠ s.dir → nextEvent s = .tick ∧ (s.mbx = 0b001 ∨ s.mbx = 0b010 ∨ s.mbx = 0b101))

/-- 41_dispatch.md R77: an RX that falls inside a TICK, after its take, has the effect of one after the whole TICK,
wherever among the effect, the status and the push it falls. -/
def Obligations.RxInsideATickEqualsRxAfterIt : Prop :=
  ∀ (b : Nat) (i : Instr) (s : State),
    exec i (handleRx b s) = mapNext (handleRx b) (exec i s) ∧
      (∀ effect ∈ [doLeft, doRight, doIncrease, doDecrease, doStop, doIdle],
        pushPwm (emitStatus i (handleRx b (effect s))) = handleRx b (pushPwm (emitStatus i (effect s)))) ∧
      pushPwm (handleRx b (emitStatus i s)) = handleRx b (pushPwm (emitStatus i s))

/-- The model's faults, each in the states the spec gives no meaning (30_encoding.md R55; 41_dispatch.md R86; 43_duty.md
R102; decision D25). Where several hold, the order is the model's (log entry 5), and so is the reading of the codes that
only a wider register holds (log entry 2). -/
def Obligations.UnreachableStatesFaultByName : Prop :=
  ∀ s : State, configRuns s.config = true →
    ((s.mbx = 0b110 ∨ s.mbx = 0b111) → handleEvent .tick s = .fault .unreachableCommandCode) ∧
    (0b101 < s.mbx → handleEvent .tick s = .fault .unreachableCommandCode) ∧
    (s.mbx < 6 → s.dir = 0b11 → handleEvent .tick s = .fault .unreachableDirectionCode) ∧
    (s.mbx < 6 → 0b10 < s.dir → handleEvent .tick s = .fault .unreachableDirectionCode) ∧
    (s.mbx < 6 → s.dir < 3 → s.config.top < s.duty → handleEvent .tick s = .fault .dutyOutOfRange) ∧
    (∀ i, 0b10 < s.dir → exec i s = .fault .unreachableDirectionCode) ∧
    ∀ i, s.dir < 3 → s.config.top < s.duty → exec i s = .fault .dutyOutOfRange

/-- From every legal state a step completes (40_decoder_mailbox.md R72, 41_dispatch.md R83, 60_exceptions.md R103). -/
def Obligations.EveryStepOfALegalStateCompletes : Prop :=
  ∀ s : State, s.Inv → ∃ t, step s = .next t

/-! ## Invariants -/

/-- The reset state is legal, and so is the state after RESET in every admitted configuration, whatever `DIR_RESET`
(10_state.md R32). -/
def Obligations.ResetStateIsLegal : Prop :=
  State.reset.Inv ∧ State.reset.OnGrid ∧
    ∀ cfg : Config, configRuns cfg = true → (resetIn cfg).Inv ∧ (resetIn cfg).OnGrid

/-- 10_state.md R32, 70_reset_and_hazards.md R131: every step keeps `DUTY <= TOP`, `PWM_CMP == DUTY`,
`not (FWD_EN and REV_EN)` and a legal mailbox. -/
def Obligations.EveryStepKeepsTheInvariants : Prop :=
  ∀ s t : State, s.Inv → step s = .next t → t.Inv

/-- 10_state.md R31: every step keeps `DUTY` a multiple of `STEP`. -/
def Obligations.EveryStepKeepsTheDutyGrid : Prop :=
  ∀ s t : State, s.Inv → s.OnGrid → step s = .next t → t.OnGrid

/-- 10_state.md R31 and 00_scope.md R8: from RESET, in every admitted configuration, the reachable duties are exactly the
multiples of `STEP` up to `STEP * floor(TOP / STEP)`; for this hardware, 0, 10, ..., 200. -/
def Obligations.ReachableDutiesAreExactlyTheGrid : Prop :=
  (∀ (cfg : Config) (d : Nat), configRuns cfg = true →
      ((∃ es t, runEvents es (resetIn cfg) = .next t ∧ t.duty = d) ↔
        d % cfg.step = 0 ∧ d ≤ cfg.step * (cfg.top / cfg.step))) ∧
    ∀ d : Nat, (∃ es t, runEvents es State.reset = .next t ∧ t.duty = d) ↔ ∃ k, k ≤ 20 ∧ d = 10 * k

/-- From every legal state every sequence of events completes in a legal state (60_exceptions.md R103;
70_reset_and_hazards.md R131). -/
def Obligations.EveryEventSequenceCompletesLegally : Prop :=
  ∀ (es : List Event) (s : State), s.Inv → ∃ t, runEvents es s = .next t ∧ t.Inv

/-! ## Runs -/

/-- A script runs one event a step, in order (30_encoding.md R60; log entry 4). -/
def Obligations.ScriptRunsOneEventPerStep : Prop :=
  ∀ (es rest : List Event) (s : State),
    Host.Core.run Sys2Proof.core es.length { s with inputs := es ++ rest } =
      runEvents es { s with inputs := rest }

/-- With no script, the machine runs the free environment's events in order, whatever they are (00_scope.md R11,
20_memory.md R40; log entry 4). -/
def Obligations.FreeEnvironmentRunsItsEvents : Prop :=
  ∀ (n : Nat) (s : State), s.inputs = [] →
    Host.Core.run Sys2Proof.core n s =
      mapNext (fun t => { t with drawn := s.drawn + n })
        (runEvents (firstEvents (fun k => Config.environmentEvent (s.drawn + k)) n) s)

/-- 41_dispatch.md R84: under the fairness premise, in every infinite execution from a legal state, the first TICK at or
after any point comes; it executes the command then in the mailbox, completes, and leaves the mailbox empty. No TICK lies
between, so that command is the one pending at the point or published since: where the event before the TICK is an RX,
the command is its byte's. -/
def Obligations.FairTicksExecuteThePendingCommand : Prop :=
  ∀ (env : Nat → Event) (s : State), FairTicks env → s.Inv → ∀ n, ∃ m, n ≤ m ∧ env m = .tick ∧
    (∀ k, n ≤ k → k < m → env k ≠ .tick) ∧
    ∃ u t c, runEvents (firstEvents env m) s = .next u ∧ runEvents (firstEvents env (m + 1)) s = .next t ∧
      u.mbx = commandCode c ∧ exec c { u with mbx := 0b000 } = .next t ∧ t.mbx = 0b000 ∧
      ∀ k b, n ≤ k → k + 1 = m → env k = .rx b → c = lut (received s.config b)

/-- The code-level machine refines the enumeration form (10_state.md R19; 30_encoding.md R53, R55; 90_conflicts.md C3):
every sequence of events completes in the state that represents the enumerated one, with the same status codes. -/
def Obligations.CodeMachineRefinesTheEnumForm : Prop :=
  ∀ (es : List Event) (s : State) (a : EnumState),
    configRuns s.config = true → s.duty ≤ s.config.top → represents a s →
      ∃ t, runEvents es s = .next t ∧ represents (enumRun s.config es a).1 t ∧
        t.status = s.status ++ (enumRun s.config es a).2.filterMap statusOf ∧ t.config = s.config
end

