-- ==== Sys2Proof/Laws/Codes.lean ====
section
/-! SUPPORT. The internal codes: reading a code back, which codes are legal, and the pins. -/

namespace Sys2Proof.Machine

@[simp] theorem commandOfCode_commandCode (c : Instr) : commandOfCode (commandCode c) = some c := by
  cases c <;> rfl

@[simp] theorem directionOfCode_directionCode (d : Direction) : directionOfCode (directionCode d) = some d := by
  cases d <;> rfl

@[simp] theorem commandCode_inj (c d : Instr) : commandCode c = commandCode d ↔ c = d := by
  cases c <;> cases d <;> decide

@[simp] theorem directionCode_inj (c d : Direction) : directionCode c = directionCode d ↔ c = d := by
  cases c <;> cases d <;> decide

@[simp] theorem commandCode_lt (c : Instr) : commandCode c < 6 := by
  cases c <;> decide

@[simp] theorem directionCode_lt (d : Direction) : directionCode d < 3 := by
  cases d <;> decide

/-- A code below 6 is the code of a command. -/
theorem exists_commandCode : ∀ {c : Nat}, c < 6 → ∃ i, c = commandCode i
  | 0, _ => ⟨.idle, rfl⟩
  | 1, _ => ⟨.left, rfl⟩
  | 2, _ => ⟨.right, rfl⟩
  | 3, _ => ⟨.increaseSpeed, rfl⟩
  | 4, _ => ⟨.decreaseSpeed, rfl⟩
  | 5, _ => ⟨.stop, rfl⟩
  | n + 6, h => absurd h (by omega)

/-- A code below 3 is the code of a direction. -/
theorem exists_directionCode : ∀ {d : Nat}, d < 3 → ∃ x, d = directionCode x
  | 0, _ => ⟨.neutral, rfl⟩
  | 1, _ => ⟨.forward, rfl⟩
  | 2, _ => ⟨.reverse, rfl⟩
  | n + 3, h => absurd h (by omega)

/-- The command codes that stand for none. -/
theorem commandOfCode_eq_none : ∀ {c : Nat}, commandOfCode c = none ↔ 6 ≤ c
  | 0 => by decide
  | 1 => by decide
  | 2 => by decide
  | 3 => by decide
  | 4 => by decide
  | 5 => by decide
  | n + 6 => by simp [commandOfCode]

/-- The direction codes that stand for none. -/
theorem directionOfCode_eq_none : ∀ {d : Nat}, directionOfCode d = none ↔ 3 ≤ d
  | 0 => by decide
  | 1 => by decide
  | 2 => by decide
  | n + 3 => by simp [directionOfCode]

/-- What reading a code back tells about it. -/
theorem commandOfCode_eq_some {c : Nat} {i : Instr} (h : commandOfCode c = some i) : c = commandCode i := by
  have hlt : c < 6 := by
    rcases Nat.lt_or_ge c 6 with h' | h'
    · exact h'
    · rw [commandOfCode_eq_none.mpr h'] at h; cases h
  obtain ⟨j, rfl⟩ := exists_commandCode hlt
  simpa using h

/-- One of the three direction codes never asserts both enables. -/
theorem enables_of_dir_lt {s : State} (h : s.dir < 3) : (fwdEn s && revEn s) = false := by
  obtain ⟨d, hd⟩ := exists_directionCode h
  unfold fwdEn revEn
  rw [hd]
  cases d <;> decide

end Sys2Proof.Machine
end

