-- ==== Sys2Proof/Laws/State.lean ====
section
/-! SUPPORT. One lemma per field per update of State, for simp: no later proof unfolds a record update. -/

namespace Sys2Proof.Machine

variable (s : State)

/-! ## setDuty -/

@[simp] theorem setDuty_config (d : Nat) : (setDuty d s).config = s.config := rfl
@[simp] theorem setDuty_duty (d : Nat) : (setDuty d s).duty = d := rfl
@[simp] theorem setDuty_dir (d : Nat) : (setDuty d s).dir = s.dir := rfl
@[simp] theorem setDuty_mbx (d : Nat) : (setDuty d s).mbx = s.mbx := rfl
@[simp] theorem setDuty_pwmCmp (d : Nat) : (setDuty d s).pwmCmp = s.pwmCmp := rfl
@[simp] theorem setDuty_status (d : Nat) : (setDuty d s).status = s.status := rfl
@[simp] theorem setDuty_diagIn (d : Nat) : (setDuty d s).diagIn = s.diagIn := rfl
@[simp] theorem setDuty_inputs (d : Nat) : (setDuty d s).inputs = s.inputs := rfl
@[simp] theorem setDuty_drawn (d : Nat) : (setDuty d s).drawn = s.drawn := rfl

/-! ## setDir -/

@[simp] theorem setDir_config (d : Direction) : (setDir d s).config = s.config := rfl
@[simp] theorem setDir_duty (d : Direction) : (setDir d s).duty = s.duty := rfl
@[simp] theorem setDir_dir (d : Direction) : (setDir d s).dir = directionCode d := rfl
@[simp] theorem setDir_mbx (d : Direction) : (setDir d s).mbx = s.mbx := rfl
@[simp] theorem setDir_pwmCmp (d : Direction) : (setDir d s).pwmCmp = s.pwmCmp := rfl
@[simp] theorem setDir_status (d : Direction) : (setDir d s).status = s.status := rfl
@[simp] theorem setDir_diagIn (d : Direction) : (setDir d s).diagIn = s.diagIn := rfl
@[simp] theorem setDir_inputs (d : Direction) : (setDir d s).inputs = s.inputs := rfl
@[simp] theorem setDir_drawn (d : Direction) : (setDir d s).drawn = s.drawn := rfl

/-! ## publish -/

@[simp] theorem publish_config (c : Instr) : (publish c s).config = s.config := rfl
@[simp] theorem publish_duty (c : Instr) : (publish c s).duty = s.duty := rfl
@[simp] theorem publish_dir (c : Instr) : (publish c s).dir = s.dir := rfl
@[simp] theorem publish_mbx (c : Instr) : (publish c s).mbx = commandCode c := rfl
@[simp] theorem publish_pwmCmp (c : Instr) : (publish c s).pwmCmp = s.pwmCmp := rfl
@[simp] theorem publish_status (c : Instr) : (publish c s).status = s.status := rfl
@[simp] theorem publish_diagIn (c : Instr) : (publish c s).diagIn = s.diagIn := rfl
@[simp] theorem publish_inputs (c : Instr) : (publish c s).inputs = s.inputs := rfl
@[simp] theorem publish_drawn (c : Instr) : (publish c s).drawn = s.drawn := rfl

/-! ## pushPwm -/

@[simp] theorem pushPwm_config : (pushPwm s).config = s.config := rfl
@[simp] theorem pushPwm_duty : (pushPwm s).duty = s.duty := rfl
@[simp] theorem pushPwm_dir : (pushPwm s).dir = s.dir := rfl
@[simp] theorem pushPwm_mbx : (pushPwm s).mbx = s.mbx := rfl
@[simp] theorem pushPwm_pwmCmp : (pushPwm s).pwmCmp = s.duty := rfl
@[simp] theorem pushPwm_status : (pushPwm s).status = s.status := rfl
@[simp] theorem pushPwm_diagIn : (pushPwm s).diagIn = s.diagIn := rfl
@[simp] theorem pushPwm_inputs : (pushPwm s).inputs = s.inputs := rfl
@[simp] theorem pushPwm_drawn : (pushPwm s).drawn = s.drawn := rfl

/-! ## resetRegisters -/

@[simp] theorem resetRegisters_config : (resetRegisters s).config = s.config := rfl
@[simp] theorem resetRegisters_duty : (resetRegisters s).duty = 0 := rfl
@[simp] theorem resetRegisters_dir : (resetRegisters s).dir = directionCode s.config.dirReset := rfl
@[simp] theorem resetRegisters_mbx : (resetRegisters s).mbx = commandCode .idle := rfl
@[simp] theorem resetRegisters_pwmCmp : (resetRegisters s).pwmCmp = 0 := rfl
@[simp] theorem resetRegisters_status : (resetRegisters s).status = s.status := rfl
@[simp] theorem resetRegisters_diagIn : (resetRegisters s).diagIn = s.diagIn := rfl
@[simp] theorem resetRegisters_inputs : (resetRegisters s).inputs = s.inputs := rfl
@[simp] theorem resetRegisters_drawn : (resetRegisters s).drawn = s.drawn := rfl

/-! ## emitStatus -/

@[simp] theorem emitStatus_config (c : Instr) : (emitStatus c s).config = s.config := by
  cases c <;> rfl
@[simp] theorem emitStatus_duty (c : Instr) : (emitStatus c s).duty = s.duty := by
  cases c <;> rfl
@[simp] theorem emitStatus_dir (c : Instr) : (emitStatus c s).dir = s.dir := by
  cases c <;> rfl
@[simp] theorem emitStatus_mbx (c : Instr) : (emitStatus c s).mbx = s.mbx := by
  cases c <;> rfl
@[simp] theorem emitStatus_pwmCmp (c : Instr) : (emitStatus c s).pwmCmp = s.pwmCmp := by
  cases c <;> rfl
@[simp] theorem emitStatus_status (c : Instr) : (emitStatus c s).status = s.status ++ (statusOf c).toList := by
  cases c <;> simp [emitStatus, statusOf]
@[simp] theorem emitStatus_diagIn (c : Instr) : (emitStatus c s).diagIn = s.diagIn := by
  cases c <;> rfl
@[simp] theorem emitStatus_inputs (c : Instr) : (emitStatus c s).inputs = s.inputs := by
  cases c <;> rfl
@[simp] theorem emitStatus_drawn (c : Instr) : (emitStatus c s).drawn = s.drawn := by
  cases c <;> rfl

/-! ## advance -/

@[simp] theorem advance_config : (advance s).config = s.config := by
  unfold advance; split <;> rfl
@[simp] theorem advance_duty : (advance s).duty = s.duty := by
  unfold advance; split <;> rfl
@[simp] theorem advance_dir : (advance s).dir = s.dir := by
  unfold advance; split <;> rfl
@[simp] theorem advance_mbx : (advance s).mbx = s.mbx := by
  unfold advance; split <;> rfl
@[simp] theorem advance_pwmCmp : (advance s).pwmCmp = s.pwmCmp := by
  unfold advance; split <;> rfl
@[simp] theorem advance_status : (advance s).status = s.status := by
  unfold advance; split <;> rfl
@[simp] theorem advance_diagIn : (advance s).diagIn = s.diagIn := by
  unfold advance; split <;> rfl
@[simp] theorem advance_inputs : (advance s).inputs = s.inputs.tail := by
  unfold advance; split <;> simp [*]
@[simp] theorem advance_drawn : (advance s).drawn = if s.inputs = [] then s.drawn + 1 else s.drawn := by
  unfold advance; split <;> simp [*]

/-! ## Two states that agree on every field are equal -/

theorem state_ext {s t : State} (h1 : s.config = t.config) (h2 : s.duty = t.duty) (h3 : s.dir = t.dir)
    (h4 : s.mbx = t.mbx) (h5 : s.pwmCmp = t.pwmCmp) (h6 : s.status = t.status) (h7 : s.diagIn = t.diagIn)
    (h8 : s.inputs = t.inputs) (h9 : s.drawn = t.drawn) : s = t := by
  cases s; cases t; simp_all

end Sys2Proof.Machine
end

