-- ==== Sys2Proof/Laws/Ops.lean ====
section
/-! SUPPORT. What the shared operations can do: take, the rest of a TICK, the arithmetic of the duty counter. -/

namespace Sys2Proof.Machine

/-- An admitted configuration, as inequalities. -/
theorem configAdmitted_iff (c : Config) :
    configAdmitted c = true ↔ 1 ≤ c.step ∧ c.step ≤ c.top ∧ c.top ≤ 2 ^ c.dutyW - 1 := by
  simp [configAdmitted, stepPositive, stepWithinTop, topFitsWidth, fitsWidth, and_assoc]

/-- The codes fit, as inequalities. -/
theorem codesFit_iff (c : Config) :
    codesFit c = true ↔ 0x73 ≤ 2 ^ c.byteW - 1 ∧ 5 ≤ 2 ^ c.cmdW - 1 ∧ 2 ≤ 2 ^ c.dirW - 1 ∧ 5 ≤ 2 ^ c.statusW - 1 := by
  simp [codesFit, fitsWidth, and_assoc]

/-- The block runs where R7 admits the configuration and the codes fit. -/
theorem configRuns_iff (c : Config) : configRuns c = true ↔ configAdmitted c = true ∧ codesFit c = true := by
  simp [configRuns]

/-- A configuration is not refused exactly when the block runs in it. -/
theorem configRefusal_eq_none {c : Config} : configRefusal c = none ↔ configRuns c = true := by
  unfold configRefusal configRuns
  cases configAdmitted c <;> cases codesFit c <;> decide

/-- The refusal of a configuration R7 does not admit. -/
theorem configRefusal_not_admitted {c : Config} (h : configAdmitted c = false) :
    configRefusal c = some .configNotAdmitted := by
  simp [configRefusal, h]

/-- The refusal of an admitted configuration whose widths do not hold the codes. -/
theorem configRefusal_codes {c : Config} (h : configAdmitted c = true) (h' : codesFit c = false) :
    configRefusal c = some .codesDoNotFit := by
  simp [configRefusal, h, h']

/-- `STEP <= TOP` where the block runs. -/
theorem step_le_top {c : Config} (h : configRuns c = true) : c.step ≤ c.top :=
  ((configAdmitted_iff c).mp ((configRuns_iff c).mp h).1).2.1

/-- A value of `BYTE_W` bits is received as it is. -/
theorem received_of_lt {c : Config} {b : Nat} (h : b < 2 ^ c.byteW) : received c b = b := Nat.mod_eq_of_lt h

/-- Every command byte is received as it is where the block runs. -/
theorem received_commandByte {c : Config} (h : configRuns c = true) (i : Instr) :
    received c (commandByte i) = commandByte i := by
  have h1 := ((codesFit_iff c).mp ((configRuns_iff c).mp h).2).1
  have h2 : commandByte i ≤ 0x73 := by cases i <;> decide
  exact received_of_lt (by omega)

/-- The decoder reads a command's byte as that command. -/
@[simp] theorem lut_commandByte (i : Instr) : lut (commandByte i) = i := by
  cases i <;> rfl

/-- A take of a legal code gives its command and leaves the mailbox Idle. -/
theorem take_of_code {s : State} {c : Instr} (h : s.mbx = commandCode c) :
    take s = .ok (c, publish .idle s) := by
  have hs : c = .idle → s = publish .idle s := fun hc => state_ext rfl rfl rfl (by simp [h, hc]) rfl rfl rfl rfl rfl
  simp only [take, h, commandOfCode_commandCode]
  split <;> rename_i hc
  · rw [← hs hc]
  · rfl

/-- All that a take can answer. -/
theorem take_cases (s : State) :
    (6 ≤ s.mbx ∧ take s = .error .unreachableCommandCode) ∨
      ∃ c, s.mbx = commandCode c ∧ take s = .ok (c, publish .idle s) := by
  rcases Nat.lt_or_ge s.mbx 6 with h | h
  · obtain ⟨c, hc⟩ := exists_commandCode h
    exact .inr ⟨c, hc, take_of_code hc⟩
  · exact .inl ⟨h, by simp [take, commandOfCode_eq_none.mpr h]⟩

/-- The duty after an increment, where the configuration is admitted: the two forms of the test agree (43_duty.md R94, R96). -/
theorem increasedDuty_eq {s : State} (h : s.config.step ≤ s.config.top) :
    increasedDuty s = if s.duty + s.config.step ≤ s.config.top then s.duty + s.config.step else s.duty := by
  have : (s.duty ≤ s.config.top - s.config.step) ↔ (s.duty + s.config.step ≤ s.config.top) := by omega
  simp [increasedDuty, incrementFits, this]

theorem increasedDuty_le {s : State} (h : s.config.step ≤ s.config.top) (hd : s.duty ≤ s.config.top) :
    increasedDuty s ≤ s.config.top := by
  rw [increasedDuty_eq h]; split <;> omega

theorem decreasedDuty_le (s : State) : decreasedDuty s ≤ s.duty := by
  unfold decreasedDuty; split <;> omega

/-- In a state where a command can execute, the rest of a TICK answers its next state. -/
theorem finishTick_ready {s : State} (c : Instr) (f : State → State)
    (ha : configRuns s.config = true) (hd : s.dir < 3) (ht : s.duty ≤ s.config.top) :
    finishTick c f s = .next (pushPwm (emitStatus c (f s))) := by
  obtain ⟨d, hd⟩ := exists_directionCode hd
  simp [finishTick, configRefusal_eq_none.mpr ha, hd, Nat.not_lt.mpr ht]

/-- When the rest of a TICK answers a next state, and which. -/
theorem finishTick_next {s t : State} {c : Instr} {f : State → State} (h : finishTick c f s = .next t) :
    (configRuns s.config = true ∧ s.dir < 3 ∧ s.duty ≤ s.config.top) ∧
      t = pushPwm (emitStatus c (f s)) := by
  unfold finishTick at h
  split at h
  · cases h
  rename_i ha
  split at h
  · cases h
  rename_i d hd
  split at h
  · cases h
  rename_i ht
  refine ⟨⟨configRefusal_eq_none.mp ha, ?_, by omega⟩, by cases h; rfl⟩
  rw [← Nat.not_le, ← directionOfCode_eq_none, hd]
  simp

end Sys2Proof.Machine
end

