-- ==== Sys2Proof/Laws/Events.lean ====
section
/-! SUPPORT. What a command, an event and a sequence of events can do: one inversion lemma each. -/

namespace Sys2Proof.Machine

/-- The effect of each command, for statements over all of them. -/
def effectOf : Instr → State → State
  | .left => doLeft
  | .right => doRight
  | .increaseSpeed => doIncrease
  | .decreaseSpeed => doDecrease
  | .stop => doStop
  | .idle => doIdle

/-- Every command is the shared rest of a TICK over its own effect. -/
theorem exec_eq_finishTick (i : Instr) (s : State) : exec i s = finishTick i (effectOf i) s := by
  cases i <;> rfl

/-- A command that answers a next state: when, and which. -/
theorem exec_next {i : Instr} {s t : State} (h : exec i s = .next t) :
    s.Ready ∧ t = pushPwm (emitStatus i (effectOf i s)) := by
  rw [exec_eq_finishTick] at h
  exact finishTick_next h

/-- The rest of a TICK touches no field but these four. -/
theorem effectOf_fields (i : Instr) (s : State) :
    (effectOf i s).config = s.config ∧ (effectOf i s).mbx = s.mbx ∧ (effectOf i s).status = s.status ∧
      (effectOf i s).diagIn = s.diagIn ∧ (effectOf i s).inputs = s.inputs ∧ (effectOf i s).drawn = s.drawn := by
  cases i <;> exact ⟨rfl, rfl, rfl, rfl, rfl, rfl⟩

/-- Where a command can execute, it answers its next state. -/
theorem exec_of_ready {s : State} (h : s.Ready) (i : Instr) :
    exec i s = .next (pushPwm (emitStatus i (effectOf i s))) := by
  rw [exec_eq_finishTick, finishTick_ready _ _ h.1 h.2.1 h.2.2]

/-- A command commutes with every change of a state that it neither reads nor writes. -/
theorem exec_mapNext (i : Instr) (g : State → State)
    (hg : ∀ s, (g s).config = s.config ∧ (g s).dir = s.dir ∧ (g s).duty = s.duty)
    (he : ∀ s, pushPwm (emitStatus i (effectOf i (g s))) = g (pushPwm (emitStatus i (effectOf i s)))) (s : State) :
    exec i (g s) = mapNext g (exec i s) := by
  simp only [exec_eq_finishTick, finishTick, (hg s).1, (hg s).2.1, (hg s).2.2]
  cases configRefusal s.config with
  | some r => rfl
  | none =>
    cases directionOfCode s.dir with
    | none => rfl
    | some d =>
      dsimp only
      split
      · rfl
      · rw [he]; rfl

/-- In a configuration that does not run, every command is refused by name. -/
theorem exec_refused {s : State} {r : Refusal} (h : configRefusal s.config = some r) (i : Instr) :
    exec i s = .refused r := by
  simp [exec_eq_finishTick, finishTick, h]

/-- What every command leaves, whatever its effect. -/
theorem exec_next_fields {i : Instr} {s t : State} (h : exec i s = .next t) :
    t.config = s.config ∧ t.mbx = s.mbx ∧ t.diagIn = s.diagIn ∧ t.inputs = s.inputs ∧ t.drawn = s.drawn := by
  obtain ⟨-, rfl⟩ := exec_next h
  obtain ⟨h1, h2, -, h4, h5, h6⟩ := effectOf_fields i s
  simp [h1, h2, h4, h5, h6]

/-- What every command adds to the status stream. -/
theorem exec_next_status {i : Instr} {s t : State} (h : exec i s = .next t) :
    t.status = s.status ++ (statusOf i).toList := by
  obtain ⟨-, rfl⟩ := exec_next h
  simp [effectOf_fields i s]

/-- The effect of a command keeps a state in which a command can execute (43_duty.md R96, 42_direction.md R92). -/
theorem effectOf_ready {s : State} (h : s.Ready) (i : Instr) : (effectOf i s).Ready := by
  obtain ⟨ha, hd, ht⟩ := h
  have hc := step_le_top ha
  cases i with
  | left => exact ⟨ha, directionCode_lt .forward, ht⟩
  | right => exact ⟨ha, directionCode_lt .reverse, ht⟩
  | stop => exact ⟨ha, directionCode_lt .neutral, ht⟩
  | increaseSpeed => exact ⟨ha, hd, increasedDuty_le hc ht⟩
  | decreaseSpeed => exact ⟨ha, hd, (decreasedDuty_le s).trans ht⟩
  | idle => exact ⟨ha, hd, ht⟩

/-- A TICK over a legal mailbox code is its command over the emptied mailbox. -/
theorem handleTick_of_code {s : State} {c : Instr} (h : s.mbx = commandCode c) :
    handleTick s = exec c (publish .idle s) := by
  simp [handleTick, take_of_code h]

/-- A TICK that answers a next state took a command and executed it. -/
theorem handleTick_next {s t : State} (h : handleTick s = .next t) :
    ∃ c, s.mbx = commandCode c ∧ exec c (publish .idle s) = .next t := by
  rcases take_cases s with ⟨_, ht⟩ | ⟨c, hc, ht⟩
  · simp [handleTick, ht] at h
  · exact ⟨c, hc, by rwa [← handleTick_of_code hc]⟩

/-- All an event can do when it answers a next state. -/
theorem handleEvent_next {e : Event} {s t : State} (h : handleEvent e s = .next t) :
    configRuns s.config = true ∧
      ((e = .reset ∧ t = resetRegisters s) ∨ (∃ b, e = .rx b ∧ t = publish (lut (received s.config b)) s) ∨
        (e = .tick ∧ ∃ c, s.mbx = commandCode c ∧ exec c (publish .idle s) = .next t)) := by
  unfold handleEvent at h
  split at h
  · cases h
  rename_i ha
  refine ⟨configRefusal_eq_none.mp ha, ?_⟩
  cases e with
  | reset => exact .inl ⟨rfl, by simpa using h.symm⟩
  | rx b => exact .inr (.inl ⟨b, rfl, by simpa [handleRx] using h.symm⟩)
  | tick => exact .inr (.inr ⟨rfl, handleTick_next h⟩)

theorem handleEvent_reset {s : State} (ha : configRuns s.config = true) :
    handleEvent .reset s = .next (resetRegisters s) := by
  simp [handleEvent, configRefusal_eq_none.mpr ha]

theorem handleEvent_rx {s : State} (ha : configRuns s.config = true) (b : Nat) :
    handleEvent (.rx b) s = .next (publish (lut (received s.config b)) s) := by
  simp [handleEvent, configRefusal_eq_none.mpr ha, handleRx]

theorem handleEvent_tick {s : State} {c : Instr} (ha : configRuns s.config = true) (hc : s.mbx = commandCode c) :
    handleEvent .tick s = exec c (publish .idle s) := by
  simp [handleEvent, configRefusal_eq_none.mpr ha, handleTick_of_code hc]

/-- In a configuration that does not run, every event is refused by name. -/
theorem handleEvent_refused {s : State} {r : Refusal} (h : configRefusal s.config = some r) (e : Event) :
    handleEvent e s = .refused r := by
  simp [handleEvent, h]

/-- No event touches the configuration or the environment's fields. -/
theorem handleEvent_next_fields {e : Event} {s t : State} (h : handleEvent e s = .next t) :
    t.config = s.config ∧ t.diagIn = s.diagIn ∧ t.inputs = s.inputs ∧ t.drawn = s.drawn := by
  obtain ⟨-, ⟨-, rfl⟩ | ⟨b, -, rfl⟩ | ⟨-, c, -, h⟩⟩ := handleEvent_next h
  · simp
  · simp
  · have := exec_next_fields h
    simp_all

@[simp] theorem runEvents_nil (s : State) : runEvents [] s = .next s := rfl

/-- The first event of a sequence, when it answers a next state. -/
theorem runEvents_cons {e : Event} {es : List Event} {s u : State} (h : handleEvent e s = .next u) :
    runEvents (e :: es) s = runEvents es u := by
  simp [runEvents, h]

/-- A sequence that completes passes through a state after its first event. -/
theorem runEvents_cons_next {e : Event} {es : List Event} {s t : State} (h : runEvents (e :: es) s = .next t) :
    ∃ u, handleEvent e s = .next u ∧ runEvents es u = .next t := by
  unfold runEvents at h
  split at h
  · rename_i u hu
    exact ⟨u, hu, h⟩
  · cases h
  · cases h

/-- A sequence of one event. -/
theorem runEvents_singleton (e : Event) (s : State) : runEvents [e] s = handleEvent e s := by
  simp only [runEvents]
  cases handleEvent e s <;> rfl

/-- A sequence after one that completes. -/
theorem runEvents_append {as : List Event} (bs : List Event) {s t : State} (h : runEvents as s = .next t) :
    runEvents (as ++ bs) s = runEvents bs t := by
  induction as generalizing s with
  | nil => cases h; rfl
  | cons e as ih =>
    obtain ⟨u, hu, h⟩ := runEvents_cons_next h
    rw [List.cons_append, runEvents_cons hu]
    exact ih h

/-- The host's machine steps as `step` does. -/
theorem core_step (s : State) : Sys2Proof.core.step s = step s := rfl

end Sys2Proof.Machine
end

