-- ==== Sys2Proof/Laws/PerInstr.lean ====
section
/-! SUPPORT. The per-command family Encoding: every command is well formed and is exactly one byte (30_encoding.md R51, R59). -/

namespace Sys2Proof.Laws.Encoding

/-- What the family says of a command. -/
def Statement (i : Instr) : Prop := i.wellFormed = true ∧ (encode i).length = 1

theorem left : Statement .left := ⟨rfl, rfl⟩
theorem right : Statement .right := ⟨rfl, rfl⟩
theorem increaseSpeed : Statement .increaseSpeed := ⟨rfl, rfl⟩
theorem decreaseSpeed : Statement .decreaseSpeed := ⟨rfl, rfl⟩
theorem stop : Statement .stop := ⟨rfl, rfl⟩
theorem idle : Statement .idle := ⟨rfl, rfl⟩

end Sys2Proof.Laws.Encoding
end

