-- ==== Sys2Proof/Tests/Slice0.lean ====
section
/-! SUPPORT. Our own tests: the well-formedness smoke, words written out from the encoding tables, one-step vectors of
95_test_vectors.md, and a state that meets the hypotheses of each statement that has any. -/

namespace Sys2Proof.Tests

open Sys2Proof.Machine

/-- A configuration of the vectors: `(TOP, STEP, DUTY_W)`. -/
def cfg (top step dutyW : Nat) : Config := { Config.hardware with top := top, step := step, dutyW := dutyW }

/-- A state of the vectors: `{DUTY d, DIR x, MBX c, PWM_CMP d}` in a configuration. -/
def mk (c : Config) (duty : Nat) (dir mbx : Nat) : State :=
  { State.reset with config := c, duty := duty, dir := dir, mbx := mbx, pwmCmp := duty }

/-- The same with this hardware's configuration. -/
def hw (duty : Nat) (dir mbx : Nat) : State := mk Config.hardware duty dir mbx

/-- The next state of an outcome. -/
def nextOf : Host.Outcome State Fault Refusal → Option State
  | .next s => some s
  | _ => none

/-- The fault of an outcome. -/
def faultOf : Host.Outcome State Fault Refusal → Option Fault
  | .fault r => some r
  | _ => none

/-- The refusal of an outcome. -/
def refusalOf : Host.Outcome State Fault Refusal → Option Refusal
  | .refused r => some r
  | _ => none

/-! ## Well-formedness: an ill-formed configuration for each check (vectors K-1 to K-6). No command is ill formed. -/

theorem test_smoke_step_zero : stepPositive (cfg 200 0 8) = false ∧ (cfg 200 0 8).wellFormed = false := by decide
theorem test_smoke_step_above_top :
    stepWithinTop (cfg 200 201 8) = false ∧ (cfg 200 201 8).wellFormed = false := by decide
theorem test_smoke_top_too_wide : topFitsWidth (cfg 256 10 8) = false ∧ (cfg 256 10 8).wellFormed = false := by decide
theorem test_smoke_admitted :
    (cfg 200 10 8).wellFormed = true ∧ (cfg 256 10 9).wellFormed = true ∧ (cfg 1 1 1).wellFormed = true := by decide
theorem test_unadmitted_is_refused :
    refusalOf (step (State.withFetchWord (mk (cfg 200 0 8) 0 0 0) 8 0x70)) = some .configNotAdmitted := by decide

theorem test_smoke_widths : codesFit { cfg 200 10 8 with byteW := 6 } = false ∧
    codesFit { cfg 200 10 8 with cmdW := 2 } = false ∧ codesFit { cfg 200 10 8 with dirW := 1 } = false ∧
    codesFit { cfg 200 10 8 with statusW := 2 } = false := by decide
theorem test_smoke_widths_ill_formed : ({ cfg 200 10 8 with byteW := 6 } : Config).wellFormed = false ∧
    ({ cfg 200 10 8 with cmdW := 2 } : Config).wellFormed = false ∧
    ({ cfg 200 10 8 with dirW := 1 } : Config).wellFormed = false ∧
    ({ cfg 200 10 8 with statusW := 2 } : Config).wellFormed = false := by decide
theorem test_narrow_widths_are_refused :
    refusalOf (step ((mk { cfg 200 10 8 with cmdW := 2 } 0 0 0).withFetchWord 8 0x70)) = some .codesDoNotFit := by decide
theorem test_wider_codes_run : (nextOf (step ((mk { cfg 200 10 8 with byteW := 9, cmdW := 4, dirW := 3, statusW := 4 }
    0 0 0).withFetchWord 8 0x70))).map (fun t => (t.duty, t.status)) = some (10, [3]) := by decide

/-! ## Decoding: words written out bit by bit from the table of 30_encoding.md R49, and vectors V-6 to V-17 -/

theorem test_decode_left : decodeTableWord 8 0b01101100 = some .left := by decide
theorem test_decode_right : decodeTableWord 8 0b01110010 = some .right := by decide
theorem test_decode_increase : decodeTableWord 8 0b01110000 = some .increaseSpeed := by decide
theorem test_decode_decrease : decodeTableWord 8 0b01101101 = some .decreaseSpeed := by decide
theorem test_decode_stop : decodeTableWord 8 0b01110011 = some .stop := by decide
theorem test_decode_idle : [0x4C, 0x7A, 0x00, 0xFF, 0xEC, 0xF0, 0x0A, 0x20, 0x6E, 0x71, 0x74, 0x6B].map lut =
    List.replicate 12 .idle := by decide
theorem test_reject_no_byte : decodeExact [] = .error .noByte := rfl
theorem test_reject_trailing : decodeExact [0x6C, 0x70] = .error .trailingBytes := rfl

/-! ## One step of each command -/

-- R87's worked example and vector D-3 (from Reverse).
theorem test_left : nextOf (step ((hw 20 0b00 0).withFetchWord 8 0x6C)) =
    some { hw 20 0b01 0 with status := [1] } := by decide
theorem test_left_from_reverse : (nextOf (exec .left (hw 50 0b10 0))).map (·.dir) = some 0b01 := by decide
-- R88's worked example and vector D-6.
theorem test_right : nextOf (step ((hw 50 0b01 0).withFetchWord 8 0x72)) =
    some { hw 50 0b10 0 with status := [2] } := by decide
theorem test_right_again : (nextOf (exec .right (hw 50 0b10 0))).map (·.status) = some [2] := by decide
-- R89's worked example and vector D-7.
theorem test_stop : nextOf (step ((hw 70 0b10 0).withFetchWord 8 0x73)) =
    some { hw 70 0b00 0 with status := [5] } := by decide
theorem test_stop_again : (nextOf (exec .stop (hw 50 0b00 0))).map (·.status) = some [5] := by decide
-- Vectors U-2 (fits) and U-4 (off the grid: hold, not clamp).
theorem test_increase_to_top : nextOf (step ((hw 190 0b01 0).withFetchWord 8 0x70)) =
    some { hw 200 0b01 0 with status := [3] } := by decide
theorem test_increase_holds : (nextOf (exec .increaseSpeed (hw 195 0b01 0))).map (·.duty) = some 195 := by decide
-- Vectors U-7 (fits) and U-9 (off the grid: hold, not clamp).
theorem test_decrease_to_zero : nextOf (step ((hw 10 0b00 0).withFetchWord 8 0x6D)) =
    some { hw 0 0b00 0 with status := [4] } := by decide
theorem test_decrease_holds : (nextOf (exec .decreaseSpeed (hw 5 0b00 0))).map (·.duty) = some 5 := by decide
-- Vector T-1, and the push of a compare value that differs.
theorem test_idle : nextOf (step ((hw 30 0b10 0).withFetchWord 8 0x7A)) = some (hw 30 0b10 0) := by decide
theorem test_idle_pushes : (nextOf (exec .idle { hw 30 0b10 0 with pwmCmp := 7 })).map (·.pwmCmp) = some 30 := by
  decide

/-! ## Other configurations (vectors U-11, U-16, U-17) and the other events -/

theorem test_increase_step_30 : (nextOf (exec .increaseSpeed (mk (cfg 200 30 8) 180 0 0))).map (·.duty) = some 180 := by
  decide
theorem test_increase_full_width : ((nextOf (exec .increaseSpeed (mk (cfg 255 1 8) 254 0 0))).map (·.duty),
    (nextOf (exec .increaseSpeed (mk (cfg 255 1 8) 255 0 0))).map (·.duty)) = (some 255, some 255) := by decide
-- Vectors M-2, M-3, M-7.
theorem test_rx_overwrites : nextOf (handleEvent (.rx 0x72) (hw 0 0 0b001)) = some (hw 0 0 0b010) := by decide
theorem test_rx_unrecognised_clobbers : nextOf (handleEvent (.rx 0x7A) (hw 0 0 0b101)) = some (hw 0 0 0) := by decide
theorem test_reset_event : nextOf (handleEvent .reset (hw 30 0b10 0b010)) = some State.reset := by decide
-- Vector T-2.
theorem test_tick_worked_example : nextOf (handleEvent .tick (hw 40 0b01 0b011)) =
    some { hw 50 0b01 0 with status := [3] } := by decide
-- Vectors T-4, T-5, and U2 of 93_implementation_defined.md.
theorem test_tick_bad_command : faultOf (handleEvent .tick (hw 0 0 0b110)) = some .unreachableCommandCode := by decide
theorem test_tick_bad_duty : faultOf (handleEvent .tick (hw 201 0 0)) = some .dutyOutOfRange := by decide
theorem test_tick_both_enables : faultOf (handleEvent .tick (hw 0 0b11 0)) = some .unreachableDirectionCode := by decide

/-! ## Witnesses: a state that meets the hypotheses of each statement -/

theorem witness_CommandStreamsRoundTrip : ∀ b ∈ [0x6C, 0x70], lut b ≠ .idle := by decide
theorem witness_DecodeOfEncodeIsTheCommand : Instr.wellFormed .stop = true := by decide
theorem witness_NoByteIsIllegalAndIdleHas251 : lut 0x72 ≠ .idle := by decide
theorem witness_LookupTableOfTheDecoder : 0xFF ≠ 0x6C ∧ 0xFF ≠ 0x72 ∧
    0xFF ≠ 0x70 ∧ 0xFF ≠ 0x6D ∧ 0xFF ≠ 0x73 := by decide
theorem witness_StatusCodesNameTheirLines : statusOf .stop = some 5 ∧ (7 = 0 ∨ 7 = 6 ∨ 7 = 7) := by
  decide
theorem witness_EnablesAreFunctionsOfDir : (hw 0 0b10 0).dir = directionCode .reverse := by decide
theorem witness_PwmLogicalStateIsDerived_idle : (hw 0 0 0).pwmCmp = 0 := by decide
theorem witness_PwmLogicalStateIsDerived_running_low :
    0 < (hw 1 0 0).pwmCmp ∧ (hw 1 0 0).pwmCmp ≤ (hw 1 0 0).config.top := by decide
theorem witness_PwmLogicalStateIsDerived_running_high :
    0 < (hw 200 0 0).pwmCmp ∧ (hw 200 0 0).pwmCmp ≤ (hw 200 0 0).config.top := by decide
theorem witness_PwmLogicalStateIsDerived_same : (hw 10 0b01 0).pwmCmp = (hw 10 0b10 1).pwmCmp ∧
    (hw 10 0b01 0).config.top = (hw 10 0b10 1).config.top := by decide
theorem witness_PwmPortShowsTheDuty : (mk (cfg 255 1 8) 255 0b10 0).Inv := by decide
theorem witness_ObservationHidesOnlyTheMailbox : (hw 30 0b01 0).Inv ∧ (hw 30 0b01 5).Inv ∧
    observe (hw 30 0b01 0) = observe (hw 30 0b01 5) := by decide
theorem witness_ResetEventSetsEveryElement : configRuns (hw 30 0b10 2).config = true := by decide
theorem witness_PendingCommandIsLostAtReset : configRuns (hw 30 0b10 0b111).config = true := by decide
theorem witness_UnadmittedConfigurationIsRefused : configAdmitted (mk (cfg 200 201 8) 0 0 0).config = false := by decide
theorem witness_NoStepWritesTheConfiguration :
    nextOf (step ((hw 190 0 0).withFetchWord 8 0x70)) = some { hw 200 0 0 with status := [3] } := by decide
theorem witness_StepRunsTheFetchedCommand : configRuns (hw 0 0 0).config = true ∧ 255 < 256 ∧
    8 ≤ (hw 0 0 0).config.byteW := by decide
theorem witness_StepHandlesTheNextEvent : { hw 0 0 0 with inputs := [.tick] }.inputs = .tick :: [] := by decide
theorem witness_StepHandlesTheNextEvent_free : (hw 0 0 0).inputs = [] := by decide
theorem witness_TickExecutesTheTakenCommand :
    configRuns (hw 0 0 5).config = true ∧ (hw 0 0 5).mbx = commandCode .stop := by decide
theorem witness_RxPublishesAndWritesNothingElse : configRuns (hw 0 0 5).config = true ∧
    255 < 2 ^ (hw 0 0 5).config.byteW := by decide
theorem witness_UnrecognisedByteClobbers : (hw 200 0b10 3).Ready ∧ lut (received (hw 200 0b10 3).config 0x0A) = .idle := by decide
theorem witness_TakeIsAnExchangeWithIdle :
    (hw 0 0 3).mbx = commandCode .increaseSpeed ∧ (hw 0 0 0).mbx = commandCode .idle := by decide
theorem witness_LastWriteWins : configRuns (hw 0 0 1).config = true := by decide
theorem witness_BothOrdersOfRxAndTickComplete : (hw 0 0 0).Ready ∧ (hw 0 0 0).mbx = 0b000 := by decide
theorem witness_TakeReturnsTheLatestPublish : (hw 10 0b01 0).Inv ∧ (hw 10 0b01 0).mbx = 0b000 := by decide
theorem witness_DrainedMailboxStaysQuiet :
    nextOf (handleEvent .tick (hw 0 0 3)) = some { hw 10 0 0 with status := [3] } := by decide
theorem witness_StatusStreamIsTheAppliedCommands : (hw 200 0b01 0).Inv ∧ (hw 200 0b01 0).mbx = 0b000 := by decide
theorem witness_EachPublishIsTakenAtMostOnce :
    nextOf (runEvents [.rx 0x6C, .tick] (hw 0 0 0)) = some { hw 0 0b01 0 with status := [1] } := by decide
-- For LeftSelectsForward, RightSelectsReverse, StopSelectsNeutralAndKeepsTheDuty and IdleHasNoEffect.
theorem witness_LeftRightStopIdleResults : (hw 200 0b10 0).Ready ∧ (hw 0 0b01 0).Ready ∧ (hw 20 0b00 0).Ready := by
  decide
theorem witness_IncreaseSpeedAddsStepOrHolds_fits :
    (hw 190 0 0).Ready ∧ (hw 190 0 0).duty ≤ (hw 190 0 0).config.top - (hw 190 0 0).config.step := by decide
theorem witness_IncreaseSpeedAddsStepOrHolds_holds :
    (hw 191 0 0).Ready ∧ (hw 191 0 0).config.top - (hw 191 0 0).config.step < (hw 191 0 0).duty := by decide
theorem witness_DecreaseSpeedSubtractsStepOrHolds_fits :
    (hw 10 0 0).Ready ∧ (hw 10 0 0).config.step ≤ (hw 10 0 0).duty := by decide
theorem witness_DecreaseSpeedSubtractsStepOrHolds_holds :
    (hw 9 0 0).Ready ∧ (hw 9 0 0).duty < (hw 9 0 0).config.step := by decide
theorem witness_IdleHasNoEffect : (hw 200 0b10 0).Inv ∧ (hw 200 0b10 0).mbx = 0b000 := by decide
theorem witness_IncreaseSaturatesAtTop : (hw 200 0 0).Ready ∧ (hw 200 0 0).duty = (hw 200 0 0).config.top := by decide
theorem witness_DecreaseSaturatesAtZero : (hw 0 0 0).Ready ∧ (hw 0 0 0).duty = 0 := by decide
theorem witness_ResumeAfterStopKeepsTheDuty : (hw 190 0b10 0).Ready ∧
    (hw 190 0b10 0).duty ≤ (hw 190 0b10 0).config.top - (hw 190 0b10 0).config.step := by decide
theorem witness_DirectionCommandsFrame :
    nextOf (exec .right (hw 10 0b01 0)) = some { hw 10 0b10 0 with status := [2] } := by decide
theorem witness_DirectionCommandsFrame_left_stop :
    nextOf (exec .left (hw 10 0b10 0)) = some { hw 10 0b01 0 with status := [1] } ∧
      nextOf (exec .stop (hw 10 0b10 0)) = some { hw 10 0b00 0 with status := [5] } := by decide
theorem witness_DutyCommandsFrame_increase :
    nextOf (exec .increaseSpeed (hw 190 0b01 0)) = some { hw 200 0b01 0 with status := [3] } := by decide
theorem witness_DutyCommandsFrame :
    nextOf (exec .decreaseSpeed (hw 10 0b01 0)) = some { hw 0 0b01 0 with status := [4] } := by decide
theorem witness_IdleFrame : nextOf (exec .idle (hw 10 0b01 0)) = some (hw 10 0b01 0) := by decide
-- For TickChangesAtMostOneOfDirAndDuty, EveryTickPushesTheDuty and TickEmitsTheCodeOfTheTakenCommand.
theorem witness_Tick_rules : nextOf (handleEvent .tick (hw 200 0b01 0b101)) =
    some { hw 200 0b00 0 with status := [5] } ∧ (hw 200 0b01 0b101).mbx = commandCode .stop := by decide
theorem witness_Tick_rules_idle : nextOf (handleEvent .tick (hw 200 0b01 0)) = some (hw 200 0b01 0) ∧
    (hw 200 0b01 0).mbx = commandCode .idle := by decide
theorem witness_OnlyItsOwnCommandsWriteEachRegister :
    nextOf (step ((hw 0 0 0).withFetchWord 8 0x72)) = some { hw 0 0b10 0 with status := [2] } ∧
      nextEvent ((hw 0 0 0).withFetchWord 8 0x72) ≠ .reset ∧
      nextOf (step ((hw 0 0 0).withFetchWord 8 0x70)) = some { hw 10 0b00 0 with status := [3] } ∧
      nextEvent ((hw 0 0 0).withFetchWord 8 0x70) ≠ .reset := by decide
theorem witness_UnreachableStatesFaultByName_code : configRuns (hw 0 0 6).config = true ∧ (hw 0 0 6).mbx = 0b110 ∧
    (hw 0 0 7).mbx = 0b111 := by decide
theorem witness_UnreachableStatesFaultByName_dir :
    (hw 0 0b11 5).mbx < 6 ∧ (hw 0 0b11 5).dir = 0b11 := by decide
theorem witness_UnreachableStatesFaultByName_duty : (hw 201 0 0).mbx < 6 ∧ (hw 201 0 0).dir < 3 ∧
    (hw 201 0 0).config.top < (hw 201 0 0).duty := by decide
-- For EveryStepOfALegalStateCompletes, EveryStepKeepsTheDutyGrid and EveryEventSequenceCompletesLegally, at the top.
theorem witness_Inv : (hw 200 0b10 0b101).Inv ∧ (hw 200 0b10 0b101).OnGrid := by decide
-- For EveryStepKeepsTheInvariants and EveryStepKeepsTheDutyGrid, the step among the hypotheses.
theorem witness_Inv_step : (({ hw 200 0b10 5 with inputs := [.tick] } : State).Inv) ∧
    nextOf (step { hw 200 0b10 5 with inputs := [.tick] }) = some { hw 200 0b00 0 with status := [5] } := by decide
theorem witness_WidthsThatHoldTheCodesRun : configAdmitted (mk { cfg 200 10 8 with dirW := 1 } 0 0 0).config = true ∧
    configRuns (mk { cfg 200 10 8 with dirW := 1 } 0 0 0).config = false := by decide
theorem witness_PortsCarryTheirValuesWhole : (∀ code ∈ (hw 0 0 0).status, code < 6) ∧
    nextOf (step ((hw 0 0 0).withFetchWord 8 0x73)) = some { hw 0 0b00 0 with status := [5] } ∧
    255 < 2 ^ Config.hardware.byteW := by decide
theorem witness_LegalElementsFitTheirWidths : (mk { cfg 255 1 8 with dirW := 2 } 255 0b10 0b101).Inv := by decide
theorem witness_ResetStateIsLegal : configRuns { cfg 200 30 8 with dirReset := .reverse } = true := by decide
theorem witness_ReachableDutiesAreExactlyTheGrid : configRuns (cfg 200 30 8) = true ∧ configRuns (cfg 1 1 1) = true := by
  decide
theorem witness_FreeEnvironmentRunsItsEvents : State.reset.inputs = [] := by decide
-- And for FairTicksExecuteThePendingCommand's last clause, an execution whose RX comes just before the TICK.
theorem witness_FairTicks_rx : FairTicks (fun k => if k % 2 = 0 then .rx 0x70 else .tick) ∧ (hw 0 0 0).Inv :=
  ⟨fun n => ⟨2 * n + 1, by omega, by simp [Nat.add_mod]⟩, by decide⟩
theorem witness_FairTicks : FairTicks (fun _ => .tick) ∧ (hw 0 0 3).Inv := ⟨fun n => ⟨n, Nat.le_refl n, rfl⟩, by decide⟩
theorem witness_CodeMachineRefinesTheEnumForm : configRuns (hw 60 0b10 4).config = true ∧
    (hw 60 0b10 4).duty ≤ (hw 60 0b10 4).config.top ∧
    represents ⟨60, .reverse, .decreaseSpeed, 60⟩ (hw 60 0b10 4) := by decide

end Sys2Proof.Tests
end

section
/-! The scope statements (00_scope.md R6, R7, R11): where the block refuses, which event a step handles, and runs in the
free environment. -/

namespace Sys2Proof.Machine

/-! ## Where the block does not run -/

/-- A step is an event over the advanced state, so it is refused where events are. -/
theorem step_refused {s : State} {r : Refusal} (h : configRefusal s.config = some r) : step s = .refused r :=
  handleEvent_refused (by rwa [advance_config]) (nextEvent s)

/-- A configuration's refusal is the answer of the step, of every event and of every command. -/
theorem step_event_command_refused {s : State} {r : Refusal} (h : configRefusal s.config = some r) :
    step s = .refused r ∧ (∀ e, handleEvent e s = .refused r) ∧ ∀ i, exec i s = .refused r :=
  ⟨step_refused h, handleEvent_refused h, exec_refused h⟩

/-- Settles O16: the inequalities are `configAdmitted_iff`, and a configuration outside them has its refusal. -/
theorem unadmittedConfigurationIsRefused : Obligations.UnadmittedConfigurationIsRefused :=
  ⟨configAdmitted_iff, fun _ h => step_event_command_refused (configRefusal_not_admitted h)⟩

/-! ## The highest code of each table

A bound holds for all codes of a table exactly when it holds for the highest one, which is the one `codesFit` names. -/

/-- The highest command byte is Stop's (30_encoding.md R49). -/
theorem forall_commandByte_le_iff {m : Nat} : (∀ i, commandByte i ≤ m) ↔ 0x73 ≤ m := by
  have highest : ∀ i, commandByte i ≤ 0x73 := fun i => by cases i <;> decide
  exact ⟨fun h => h .stop, fun h i => (highest i).trans h⟩

/-- The highest Command code is Stop's (30_encoding.md R53). -/
theorem forall_commandCode_le_iff {m : Nat} : (∀ i, commandCode i ≤ m) ↔ 5 ≤ m :=
  ⟨fun h => h .stop, fun h i => (Nat.le_of_lt_succ (commandCode_lt i)).trans h⟩

/-- The highest direction code is Reverse's (30_encoding.md R55). -/
theorem forall_directionCode_le_iff {m : Nat} : (∀ d, directionCode d ≤ m) ↔ 2 ≤ m :=
  ⟨fun h => h .reverse, fun h d => (Nat.le_of_lt_succ (directionCode_lt d)).trans h⟩

/-- No status code is above 5 (30_encoding.md R56). -/
theorem statusOf_le {i : Instr} {code : Nat} (h : statusOf i = some code) : code ≤ 5 := by
  cases i <;> cases h <;> decide

/-- The highest status code is Stop's (30_encoding.md R56). -/
theorem forall_statusOf_le_iff {m : Nat} : (∀ i code, statusOf i = some code → code ≤ m) ↔ 5 ≤ m :=
  ⟨fun h => h .stop 5 rfl, fun h _ _ hc => (statusOf_le hc).trans h⟩

/-- An admitted configuration in which the block does not run is one whose codes do not fit. -/
theorem codesFit_eq_false {c : Config} (ha : configAdmitted c = true) (hr : configRuns c = false) :
    codesFit c = false := by
  simpa [configRuns, ha] using hr

/-- Settles O58: the widths hold every code exactly when they hold the highest of each table. -/
theorem widthsThatHoldTheCodesRun : Obligations.WidthsThatHoldTheCodesRun := by
  refine ⟨fun c => ?_, by decide, fun s ha hr => ?_⟩
  · rw [configRuns_iff, codesFit_iff, forall_directionCode_le_iff, forall_statusOf_le_iff, forall_and,
      forall_commandByte_le_iff, forall_commandCode_le_iff, and_assoc]
  · exact step_event_command_refused (configRefusal_codes ha (codesFit_eq_false ha hr))

/-! ## Which event a step handles -/

/-- With a script, a step handles its head and leaves its tail. -/
theorem step_of_inputs_cons {s : State} {e : Event} {rest : List Event} (h : s.inputs = e :: rest) :
    step s = handleEvent e { s with inputs := rest } := by
  simp [step, nextEvent, advance, h]

/-- With no script, a step handles the free environment's next event and counts it. -/
theorem step_of_inputs_nil {s : State} (h : s.inputs = []) :
    step s = handleEvent (Config.environmentEvent s.drawn) { s with drawn := s.drawn + 1 } := by
  simp [step, nextEvent, advance, h]

/-- Settles O19: one equation of the step for each form of the script. -/
theorem stepHandlesTheNextEvent : Obligations.StepHandlesTheNextEvent :=
  ⟨fun _ _ _ => step_of_inputs_cons, fun _ => step_of_inputs_nil⟩

/-! ## The environment's side of the state

No event reads or writes `DIAG_IN`, the script or the counter, so every change of these three commutes with it. -/

/-- A TICK over a mailbox code that stands for no command is a fault (41_dispatch.md R86). -/
theorem handleTick_of_bad_code {s : State} (h : 6 ≤ s.mbx) : handleTick s = .fault .unreachableCommandCode := by
  simp [handleTick, take, commandOfCode_eq_none.mpr h]

/-- A change of the three fields that belong to the environment. -/
def mapEnvironment (diag : Bool → Bool) (script : List Event → List Event) (count : Nat → Nat) (s : State) : State :=
  { s with diagIn := diag s.diagIn, inputs := script s.inputs, drawn := count s.drawn }

section
variable (diag : Bool → Bool) (script : List Event → List Event) (count : Nat → Nat)

/-- A command neither reads nor writes the environment's side. -/
theorem exec_mapEnvironment (i : Instr) (s : State) :
    exec i (mapEnvironment diag script count s) = mapNext (mapEnvironment diag script count) (exec i s) :=
  exec_mapNext i (mapEnvironment diag script count) (fun _ => ⟨rfl, rfl, rfl⟩) (fun _ => by cases i <;> rfl) s

/-- Nor does a TICK. -/
theorem handleTick_mapEnvironment (s : State) :
    handleTick (mapEnvironment diag script count s) = mapNext (mapEnvironment diag script count) (handleTick s) := by
  rcases Nat.lt_or_ge s.mbx 6 with hlegal | hbad
  · obtain ⟨c, hc⟩ := exists_commandCode hlegal
    rw [handleTick_of_code hc, handleTick_of_code (s := mapEnvironment diag script count s) hc]
    exact exec_mapEnvironment diag script count c (publish .idle s)
  · rw [handleTick_of_bad_code hbad, handleTick_of_bad_code (s := mapEnvironment diag script count s) hbad]
    rfl

/-- Nor does any event (10_state.md R24, R27; log entry 4). -/
theorem handleEvent_mapEnvironment (e : Event) (s : State) :
    handleEvent e (mapEnvironment diag script count s) =
      mapNext (mapEnvironment diag script count) (handleEvent e s) := by
  cases hr : configRefusal s.config with
  | some r =>
    rw [handleEvent_refused hr, handleEvent_refused (s := mapEnvironment diag script count s) hr]
    rfl
  | none =>
    have hruns : configRuns s.config = true := configRefusal_eq_none.mp hr
    cases e with
    | reset =>
      rw [handleEvent_reset hruns, handleEvent_reset (s := mapEnvironment diag script count s) hruns]
      rfl
    | rx b =>
      rw [handleEvent_rx hruns, handleEvent_rx (s := mapEnvironment diag script count s) hruns]
      rfl
    | tick =>
      simpa only [handleEvent, mapEnvironment, hr] using handleTick_mapEnvironment diag script count s

/-- Nor does a sequence of events. -/
theorem runEvents_mapEnvironment (es : List Event) (s : State) :
    runEvents es (mapEnvironment diag script count s) =
      mapNext (mapEnvironment diag script count) (runEvents es s) := by
  induction es generalizing s with
  | nil => rfl
  | cons e es ih =>
    rw [runEvents, runEvents, handleEvent_mapEnvironment]
    cases handleEvent e s with
    | next t => exact ih t
    | fault r => rfl
    | refused r => rfl

end

/-! ## Runs of a machine -/

section
variable {M : Host.Core} {s : M.State}

/-- A step that answers a next state, and the run after it. -/
theorem run_succ_of_next {t : M.State} (h : M.step s = .next t) (n : Nat) : M.run (n + 1) s = M.run n t := by
  simp [Host.Core.run, h]

/-- A fault ends the run. -/
theorem run_succ_of_fault {r : M.Fault} (h : M.step s = .fault r) (n : Nat) : M.run (n + 1) s = .fault r := by
  simp [Host.Core.run, h]

/-- A refusal ends the run. -/
theorem run_succ_of_refused {r : M.Refusal} (h : M.step s = .refused r) (n : Nat) : M.run (n + 1) s = .refused r := by
  simp [Host.Core.run, h]

end

/-! ## Runs in the free environment -/

/-- The free environment's next `n` events when it has been drawn from `d` times. -/
abbrev freeEvents (d n : Nat) : List Event := firstEvents (fun k => Config.environmentEvent (d + k)) n

/-- They are the next event and those that follow it. -/
theorem freeEvents_succ (d n : Nat) :
    freeEvents d (n + 1) = Config.environmentEvent d :: freeEvents (d + 1) n := by
  simp [firstEvents, List.range_succ_eq_map, Nat.add_assoc, Nat.add_comm 1]

/-- The state with the counter of drawn events at a given value. -/
abbrev setDrawn (n : Nat) : State → State := mapEnvironment id id fun _ => n

/-- Of two settings of the counter only the later one stays. -/
theorem mapNext_setDrawn_setDrawn (m n : Nat) (o : Host.Outcome State Fault Refusal) :
    mapNext (setDrawn n) (mapNext (setDrawn m) o) = mapNext (setDrawn n) o := by
  cases o <;> rfl

/-- With no script, a step is the free environment's event, and the counter set one further. -/
theorem step_eq_mapNext_setDrawn {s : State} (h : s.inputs = []) :
    step s = mapNext (setDrawn (s.drawn + 1)) (handleEvent (Config.environmentEvent s.drawn) s) :=
  (step_of_inputs_nil h).trans (handleEvent_mapEnvironment id id (fun _ => s.drawn + 1) _ s)

/-- With no script, `n` steps are the free environment's next `n` events, and the counter set `n` further. -/
theorem run_eq_mapNext_setDrawn (n : Nat) {s : State} (h : s.inputs = []) :
    Host.Core.run Sys2Proof.core n s =
      mapNext (setDrawn (s.drawn + n)) (runEvents (freeEvents s.drawn n) s) := by
  induction n generalizing s with
  | zero => rfl
  | succ n ih =>
    have hstep := step_eq_mapNext_setDrawn h
    rw [freeEvents_succ]
    generalize he : handleEvent (Config.environmentEvent s.drawn) s = answer at hstep
    cases answer with
    | fault r =>
      rw [runEvents, he]
      exact run_succ_of_fault (M := Sys2Proof.core) hstep n
    | refused r =>
      rw [runEvents, he]
      exact run_succ_of_refused (M := Sys2Proof.core) hstep n
    | next t =>
      obtain ⟨-, -, hinputs, -⟩ := handleEvent_next_fields he
      have hrest : Host.Core.run Sys2Proof.core n (setDrawn (s.drawn + 1) t) =
          mapNext (setDrawn (s.drawn + 1 + n))
            (runEvents (freeEvents (s.drawn + 1) n) (setDrawn (s.drawn + 1) t)) :=
        ih (hinputs.trans h)
      rw [runEvents_mapEnvironment, mapNext_setDrawn_setDrawn, Nat.add_right_comm, Nat.add_assoc] at hrest
      rw [runEvents_cons he]
      exact (run_succ_of_next (M := Sys2Proof.core) hstep n).trans hrest

/-- Settles O55, by induction on the number of steps: an event commutes with the counter it does not read. -/
theorem freeEnvironmentRunsItsEvents : Obligations.FreeEnvironmentRunsItsEvents :=
  fun n _ => run_eq_mapNext_setDrawn n

end Sys2Proof.Machine
end

section
/-! The state statements (10_state.md): what every event keeps, the enumeration form, the reachable duties, the
ports. -/

namespace Sys2Proof.Machine

/-! ## The invariants (10_state.md R32) -/

/-- The enables add nothing to a legal direction, so a legal state is one in which a command can execute, whose compare
value is the duty and whose mailbox code is legal. -/
theorem inv_iff {s : State} : s.Inv ↔ s.Ready ∧ s.pwmCmp = s.duty ∧ s.mbx < 6 := by
  constructor
  · rintro ⟨hruns, hduty, hpwm, -, hdir, hmbx⟩
    exact ⟨⟨hruns, hdir, hduty⟩, hpwm, hmbx⟩
  · rintro ⟨⟨hruns, hdir, hduty⟩, hpwm, hmbx⟩
    exact ⟨hruns, hduty, hpwm, enables_of_dir_lt hdir, hdir, hmbx⟩

/-- A reset leaves a legal state in every configuration in which the block runs. -/
theorem resetRegisters_inv {s : State} (h : configRuns s.config = true) : (resetRegisters s).Inv :=
  inv_iff.mpr ⟨⟨h, directionCode_lt _, Nat.zero_le _⟩, rfl, commandCode_lt .idle⟩

/-- Publishing a command keeps a legal state legal. -/
theorem publish_inv {s : State} (h : s.Inv) (c : Instr) : (publish c s).Inv := by
  obtain ⟨hready, hpwm, -⟩ := inv_iff.mp h
  exact inv_iff.mpr ⟨hready, hpwm, commandCode_lt c⟩

/-- A command that completes leaves a legal state when the mailbox is legal: its effect keeps what a command needs, and
the push makes the compare value the duty. -/
theorem exec_next_inv {i : Instr} {s t : State} (hmbx : s.mbx < 6) (h : exec i s = .next t) : t.Inv := by
  have ⟨_, hfinalMbx, _⟩ := exec_next_fields h
  obtain ⟨hready, rfl⟩ := exec_next h
  have heffect := effectOf_ready hready i
  exact inv_iff.mpr ⟨by simpa [State.Ready] using heffect, by simp, hfinalMbx ▸ hmbx⟩

/-- Every event keeps a legal state legal. -/
theorem handleEvent_keeps_inv {e : Event} {s t : State} (hs : s.Inv) (h : handleEvent e s = .next t) : t.Inv := by
  obtain ⟨hruns, ⟨-, rfl⟩ | ⟨b, -, rfl⟩ | ⟨-, c, -, hexec⟩⟩ := handleEvent_next h
  · exact resetRegisters_inv hruns
  · exact publish_inv hs _
  · exact exec_next_inv (commandCode_lt .idle) hexec

/-- Consuming an event touches no element of the block. -/
theorem advance_inv {s : State} (h : s.Inv) : (advance s).Inv := by
  simpa [inv_iff, State.Ready] using inv_iff.mp h

/-- Settles O50: a step is an event over the advanced state. -/
theorem everyStepKeepsTheInvariants : Obligations.EveryStepKeepsTheInvariants :=
  fun _ _ hs h => handleEvent_keeps_inv (advance_inv hs) h

/-! ## The duty grid (10_state.md R31) -/

/-- Adding `STEP` or holding keeps the duty on the grid. -/
theorem increasedDuty_mod_step {s : State} (h : s.OnGrid) : increasedDuty s % s.config.step = 0 := by
  unfold increasedDuty
  split
  · rw [Nat.add_mod_right]
    exact h
  · exact h

/-- Subtracting `STEP` or holding keeps the duty on the grid. -/
theorem decreasedDuty_mod_step {s : State} (h : s.OnGrid) : decreasedDuty s % s.config.step = 0 := by
  unfold decreasedDuty decrementFits
  split
  · next hfits =>
    rw [← Nat.mod_eq_sub_mod (of_decide_eq_true hfits)]
    exact h
  · exact h

/-- The effect of every command keeps the grid. -/
theorem effectOf_onGrid {s : State} (h : s.OnGrid) (i : Instr) : (effectOf i s).OnGrid := by
  cases i with
  | increaseSpeed => exact increasedDuty_mod_step h
  | decreaseSpeed => exact decreasedDuty_mod_step h
  | left | right | stop | idle => exact h

/-- Every event keeps the grid. -/
theorem handleEvent_keeps_onGrid {e : Event} {s t : State} (hs : s.OnGrid) (h : handleEvent e s = .next t) :
    t.OnGrid := by
  obtain ⟨-, ⟨-, rfl⟩ | ⟨b, -, rfl⟩ | ⟨-, c, -, hexec⟩⟩ := handleEvent_next h
  · exact Nat.zero_mod _
  · exact hs
  · obtain ⟨-, rfl⟩ := exec_next hexec
    simpa [State.OnGrid] using effectOf_onGrid (s := publish .idle s) hs c

/-- Settles O51: the grid holds of the advanced state, and every event keeps it. -/
theorem everyStepKeepsTheDutyGrid : Obligations.EveryStepKeepsTheDutyGrid :=
  fun s _ _ hgrid h => handleEvent_keeps_onGrid (s := advance s) (by simpa [State.OnGrid] using hgrid) h

/-! ## The enumeration form (10_state.md R19; 90_conflicts.md C3) -/

/-- A state that represents an enumerated one holds a legal direction code. -/
theorem ready_of_represents {a : EnumState} {s : State} (hruns : configRuns s.config = true)
    (hduty : s.duty ≤ s.config.top) (h : represents a s) : s.Ready := by
  obtain ⟨-, hdir, -, -⟩ := h
  exact ⟨hruns, hdir ▸ directionCode_lt a.dir, hduty⟩

/-- The effect of the pending command is that of the enumeration form on the two elements it may write. -/
theorem effectOf_eq_enumEffect {a : EnumState} {s : State} (hstep : s.config.step ≤ s.config.top)
    (hduty : s.duty = a.duty) (hdir : s.dir = directionCode a.dir) :
    (effectOf a.mbx s).duty = (enumEffect s.config a).duty ∧
      (effectOf a.mbx s).dir = directionCode (enumEffect s.config a).dir := by
  obtain ⟨duty, dir, mbx, pwmCmp⟩ := a
  cases mbx with
  | left | right | stop => exact ⟨hduty, rfl⟩
  | idle => exact ⟨hduty, hdir⟩
  | increaseSpeed =>
    simp only [effectOf, doIncrease, setDuty_duty, setDuty_dir, increasedDuty_eq hstep, enumEffect, hduty, hdir]
    split <;> exact ⟨rfl, rfl⟩
  | decreaseSpeed =>
    simp only [effectOf, doDecrease, setDuty_duty, setDuty_dir, decreasedDuty, decrementFits, decide_eq_true_eq,
      enumEffect, hduty, hdir]
    split <;> exact ⟨rfl, rfl⟩

/-- A TICK of the enumeration form emits the code of the command it takes. -/
theorem enumEvent_tick_codes (cfg : Config) (a : EnumState) :
    (enumEvent cfg .tick a).2.filterMap statusOf = (statusOf a.mbx).toList := by
  unfold enumEvent
  cases a.mbx <;> rfl

/-- One event of the code-level machine follows the enumeration form (the commuting diagram of the refinement). -/
theorem handleEvent_simulates {a : EnumState} {s : State} (e : Event) (hready : s.Ready) (ha : represents a s) :
    ∃ t, handleEvent e s = .next t ∧ represents (enumEvent s.config e a).1 t ∧
      t.status = s.status ++ (enumEvent s.config e a).2.filterMap statusOf ∧ t.Ready := by
  have hruns := hready.1
  obtain ⟨hduty, hdir, hmbx, hpwm⟩ := ha
  cases e with
  | reset =>
    obtain ⟨hreset, -⟩ := inv_iff.mp (resetRegisters_inv hruns)
    exact ⟨_, handleEvent_reset hruns, ⟨rfl, rfl, rfl, rfl⟩, (List.append_nil _).symm, hreset⟩
  | rx b => exact ⟨_, handleEvent_rx hruns b, ⟨hduty, hdir, rfl, hpwm⟩, (List.append_nil _).symm, hready⟩
  | tick =>
    have hexec := exec_of_ready (s := publish .idle s) hready a.mbx
    obtain ⟨hduty', hdir'⟩ := effectOf_eq_enumEffect (s := publish .idle s) (step_le_top hruns) hduty hdir
    obtain ⟨-, hidle, -, -, -⟩ := exec_next_fields hexec
    obtain ⟨hready', -⟩ := inv_iff.mp (exec_next_inv (commandCode_lt .idle) hexec)
    refine ⟨_, (handleEvent_tick hruns hmbx).trans hexec, ⟨?_, ?_, hidle, ?_⟩, ?_, hready'⟩
    · simpa [enumEvent] using hduty'
    · simpa [enumEvent] using hdir'
    · simpa [enumEvent] using hduty'
    · rw [exec_next_status hexec, enumEvent_tick_codes]
      rfl

/-- A sequence of events of the code-level machine follows the enumeration form. -/
theorem runEvents_simulates (es : List Event) {a : EnumState} {s : State} (hready : s.Ready)
    (ha : represents a s) :
    ∃ t, runEvents es s = .next t ∧ represents (enumRun s.config es a).1 t ∧
      t.status = s.status ++ (enumRun s.config es a).2.filterMap statusOf ∧ t.config = s.config := by
  induction es generalizing s a with
  | nil => exact ⟨s, rfl, ha, by simp [enumRun], rfl⟩
  | cons e es ih =>
    obtain ⟨u, hu, hrep, hstatus, hready'⟩ := handleEvent_simulates e hready ha
    obtain ⟨hconfig, -⟩ := handleEvent_next_fields hu
    obtain ⟨t, ht, hrep', hstatus', hconfig'⟩ := ih hready' hrep
    rw [hconfig] at hrep' hstatus' hconfig'
    refine ⟨t, (runEvents_cons hu).trans ht, hrep', ?_, hconfig'⟩
    rw [hstatus', hstatus, enumRun, List.filterMap_append, List.append_assoc]

/-- Settles O57, by induction on the events with `handleEvent_simulates` at each. -/
theorem codeMachineRefinesTheEnumForm : Obligations.CodeMachineRefinesTheEnumForm :=
  fun es _ _ hruns hduty ha => runEvents_simulates es (ready_of_represents hruns hduty ha) ha

/-! ## Widths and ports (10_state.md R15, R16, R22, R23) -/

/-- A value within the greatest of a width is below its power of two. -/
theorem lt_two_pow_of_le {w v : Nat} (h : v ≤ 2 ^ w - 1) : v < 2 ^ w :=
  (Nat.le_sub_one_iff_lt (Nat.two_pow_pos w)).mp h

/-- `TOP` fits the duty's width where the block runs. -/
theorem top_lt {c : Config} (h : configRuns c = true) : c.top < 2 ^ c.dutyW := by
  obtain ⟨hadmitted, -⟩ := (configRuns_iff c).mp h
  obtain ⟨-, -, htop⟩ := (configAdmitted_iff c).mp hadmitted
  exact lt_two_pow_of_le htop

/-- The greatest codes of the Command, direction and status tables fit their widths where the block runs. -/
theorem codes_lt {c : Config} (h : configRuns c = true) :
    5 < 2 ^ c.cmdW ∧ 2 < 2 ^ c.dirW ∧ 5 < 2 ^ c.statusW := by
  obtain ⟨-, hfit⟩ := (configRuns_iff c).mp h
  obtain ⟨-, hcmd, hdir, hstatus⟩ := (codesFit_iff c).mp hfit
  exact ⟨lt_two_pow_of_le hcmd, lt_two_pow_of_le hdir, lt_two_pow_of_le hstatus⟩

/-- Settles O59: each element is within the greatest value its table or `TOP` gives, which its width holds. -/
theorem legalElementsFitTheirWidths : Obligations.LegalElementsFitTheirWidths := by
  rintro s ⟨hruns, hduty, hpwm, -, hdir, hmbx⟩
  have htop := top_lt hruns
  obtain ⟨hcmdW, hdirW, -⟩ := codes_lt hruns
  exact ⟨by omega, by omega, by omega, by omega⟩

/-- Settles O10: the port shows `PWM_CMP`, which is the duty and fits the port. -/
theorem pwmPortShowsTheDuty : Obligations.PwmPortShowsTheDuty := by
  intro s hs
  obtain ⟨hduty, -, -, hpwm⟩ := legalElementsFitTheirWidths s hs
  obtain ⟨-, heq, -⟩ := inv_iff.mp hs
  refine ⟨hduty, ?_⟩
  rw [pwmPort, BitVec.toNat_ofNat, Nat.mod_eq_of_lt hpwm, heq]

/-- A code in the stream after an event was there before it or is the code of a command. -/
theorem mem_status_of_handleEvent_next {e : Event} {s t : State} (h : handleEvent e s = .next t) {code : Nat}
    (hcode : code ∈ t.status) : code ∈ s.status ∨ ∃ i, statusOf i = some code := by
  obtain ⟨-, ⟨-, rfl⟩ | ⟨b, -, rfl⟩ | ⟨-, c, -, hexec⟩⟩ := handleEvent_next h
  · exact .inl hcode
  · exact .inl hcode
  · rw [exec_next_status hexec, List.mem_append, Option.mem_toList] at hcode
    exact hcode.imp_right fun hc => ⟨c, hc⟩

/-- The `STATUS` port shows a stream of codes below 6 whole where the block runs. -/
theorem statusPort_toNat {s : State} (hruns : configRuns s.config = true) (h : ∀ code ∈ s.status, code < 6) :
    (statusPort s).map BitVec.toNat = s.status := by
  obtain ⟨-, -, hstatus⟩ := codes_lt hruns
  have hwhole : ∀ code ∈ s.status, (BitVec.ofNat s.config.statusW code).toNat = code := fun code hcode =>
    Nat.mod_eq_of_lt ((Nat.le_of_lt_succ (h code hcode)).trans_lt hstatus)
  rw [statusPort, List.map_map]
  exact (List.map_congr_left hwhole).trans (List.map_id _)

/-- Settles O60: no command's code is above 5, and the widths hold the codes where a step answers next. -/
theorem portsCarryTheirValuesWhole : Obligations.PortsCarryTheirValuesWhole := by
  refine ⟨fun s t hs h => ?_, fun _ _ => received_of_lt, fun c b => Nat.mod_lt b (Nat.two_pow_pos c.byteW)⟩
  have ht : ∀ code ∈ t.status, code < 6 := by
    intro code hcode
    rcases mem_status_of_handleEvent_next h hcode with hold | ⟨i, hi⟩
    · exact hs code (advance_status s ▸ hold)
    · exact Nat.lt_succ_of_le (statusOf_le hi)
  obtain ⟨hruns, -⟩ := handleEvent_next h
  obtain ⟨hconfig, -⟩ := handleEvent_next_fields h
  exact ⟨ht, statusPort_toNat (hconfig ▸ hruns) ht⟩

/-! ## What an observer sees (10_state.md R20, R24, R25, R28) -/

/-- Settles O8: the bits of each of the three direction codes. -/
theorem enablesAreFunctionsOfDir : Obligations.EnablesAreFunctionsOfDir := by
  intro s d hd
  unfold fwdEn revEn
  rw [hd]
  cases d <;> decide

/-- A legal direction code is read back from the enables, `{REV_EN, FWD_EN}` (30_encoding.md R55). -/
theorem dir_eq_of_enables {s : State} (h : s.dir < 3) : s.dir = 2 * (revEn s).toNat + (fwdEn s).toNat := by
  obtain ⟨d, hd⟩ := exists_directionCode h
  obtain ⟨hfwd, hrev, -⟩ := enablesAreFunctionsOfDir s d hd
  rw [hd, hfwd, hrev]
  cases d <;> rfl

/-- Settles O11: the enables give back `DIR`, and the compare value is the duty. -/
theorem observationHidesOnlyTheMailbox : Obligations.ObservationHidesOnlyTheMailbox := by
  refine ⟨fun s t hs ht h => ?_, fun _ _ => rfl⟩
  obtain ⟨⟨-, hsdir, -⟩, hspwm, -⟩ := inv_iff.mp hs
  obtain ⟨⟨-, htdir, -⟩, htpwm, -⟩ := inv_iff.mp ht
  obtain ⟨hfwd, hrev, hpwm, hcodes⟩ := Observation.mk.inj h
  refine ⟨by rw [← hspwm, ← htpwm, hpwm], ?_, hpwm, hcodes⟩
  rw [dir_eq_of_enables hsdir, dir_eq_of_enables htdir, hfwd, hrev]

/-- Settles O9: each branch of the definition, which reads nothing else. -/
theorem pwmLogicalStateIsDerived : Obligations.PwmLogicalStateIsDerived := by
  refine ⟨fun s h => ?_, fun s hpos hle => ?_, fun s t hpwm htop => ?_⟩
  · exact if_pos h
  · rw [pwmLogical, if_neg hpos.ne', if_pos hle]
  · rw [pwmLogical, pwmLogical, hpwm, htop]

/-- Consuming an event commutes with a change of the level of `DIAG_IN`. -/
theorem advance_diagIn_update (s : State) (level : Bool) :
    advance { s with diagIn := level } = { advance s with diagIn := level } := by
  simp only [advance]
  split <;> rfl

/-- Settles O12: the level is on the environment's side, which no event reads or writes. -/
theorem diagInNeverMatters : Obligations.DiagInNeverMatters := by
  refine fun s level => ⟨?_, rfl⟩
  calc step { s with diagIn := level }
      = handleEvent (nextEvent s) { advance s with diagIn := level } :=
        congrArg (handleEvent (nextEvent s)) (advance_diagIn_update s level)
    _ = mapNext (fun t => { t with diagIn := level }) (step s) :=
        handleEvent_mapEnvironment (fun _ => level) id id (nextEvent s) (advance s)

/-! ## What a step writes (10_state.md R18, R27; 42_direction.md R91) -/

/-- Settles O17: an event keeps these fields of the advanced state, which is the state with the event consumed. -/
theorem noStepWritesTheConfiguration : Obligations.NoStepWritesTheConfiguration := by
  intro s t h
  obtain ⟨hconfig, hdiag, hinputs, -⟩ := handleEvent_next_fields h
  exact ⟨hconfig.trans (advance_config s), hinputs.trans (advance_inputs s), hdiag.trans (advance_diagIn s)⟩

/-- Only the duty commands write `DUTY`. -/
theorem eq_of_effectOf_duty_ne {i : Instr} {s : State} (h : (effectOf i s).duty ≠ s.duty) :
    i = .increaseSpeed ∨ i = .decreaseSpeed := by
  cases i with
  | increaseSpeed => exact .inl rfl
  | decreaseSpeed => exact .inr rfl
  | left | right | stop | idle => exact absurd rfl h

/-- Only the direction commands write `DIR`. -/
theorem eq_of_effectOf_dir_ne {i : Instr} {s : State} (h : (effectOf i s).dir ≠ s.dir) :
    i = .left ∨ i = .right ∨ i = .stop := by
  cases i with
  | left => exact .inl rfl
  | right => exact .inr (.inl rfl)
  | stop => exact .inr (.inr rfl)
  | increaseSpeed | decreaseSpeed | idle => exact absurd rfl h

/-- An event other than RESET writes neither `DUTY` nor `DIR`, or is a TICK whose command's effect writes them. -/
theorem handleEvent_next_duty_dir {e : Event} {s t : State} (h : handleEvent e s = .next t) (he : e ≠ .reset) :
    (t.duty = s.duty ∧ t.dir = s.dir) ∨
      (e = .tick ∧ ∃ c, s.mbx = commandCode c ∧ t.duty = (effectOf c (publish .idle s)).duty ∧
        t.dir = (effectOf c (publish .idle s)).dir) := by
  obtain ⟨-, ⟨hreset, -⟩ | ⟨b, -, rfl⟩ | ⟨htick, c, hc, hexec⟩⟩ := handleEvent_next h
  · exact absurd hreset he
  · exact .inl ⟨rfl, rfl⟩
  · obtain ⟨-, rfl⟩ := exec_next hexec
    exact .inr ⟨htick, c, hc, by simp, by simp⟩

/-- Settles O45: a changed register is one that the taken command's effect writes. -/
theorem onlyItsOwnCommandsWriteEachRegister : Obligations.OnlyItsOwnCommandsWriteEachRegister := by
  intro s t h he
  rcases handleEvent_next_duty_dir h he with ⟨hduty, hdir⟩ | ⟨htick, c, hc, hduty, hdir⟩
  · rw [advance_duty] at hduty
    rw [advance_dir] at hdir
    exact ⟨fun hne => absurd hduty hne, fun hne => absurd hdir hne⟩
  · have hcode : ∀ {i}, c = i → s.mbx = commandCode i := fun hi => hi ▸ advance_mbx s ▸ hc
    refine ⟨fun hne => ⟨htick, ?_⟩, fun hne => ⟨htick, ?_⟩⟩
    · have hwrites : c = .increaseSpeed ∨ c = .decreaseSpeed :=
        eq_of_effectOf_duty_ne (s := publish .idle (advance s)) (by rw [← hduty]; simpa using hne)
      exact hwrites.imp hcode hcode
    · have hwrites : c = .left ∨ c = .right ∨ c = .stop :=
        eq_of_effectOf_dir_ne (s := publish .idle (advance s)) (by rw [← hdir]; simpa using hne)
      exact hwrites.imp hcode (Or.imp hcode hcode)

/-! ## The reset state and the duties reachable from it (10_state.md R30, R31; 00_scope.md R8) -/

/-- Settles O13: each field of the literal state. -/
theorem resetStateHoldsTheResetValues : Obligations.ResetStateHoldsTheResetValues :=
  ⟨rfl, rfl, rfl, rfl, rfl, rfl, rfl, rfl⟩

/-- The state after a RESET is legal and on the grid. -/
theorem resetIn_inv_onGrid {cfg : Config} (h : configRuns cfg = true) : (resetIn cfg).Inv ∧ (resetIn cfg).OnGrid :=
  ⟨resetRegisters_inv h, Nat.zero_mod _⟩

/-- This hardware's reset state is the state after a RESET in its configuration. -/
theorem reset_eq_resetIn : State.reset = resetIn Config.hardware := rfl

/-- The block runs in this hardware's configuration. -/
theorem configRuns_hardware : configRuns Config.hardware = true := by decide

/-- Settles O49: this hardware's reset state is one of those after a RESET. -/
theorem resetStateIsLegal : Obligations.ResetStateIsLegal := by
  obtain ⟨hinv, hgrid⟩ := resetIn_inv_onGrid configRuns_hardware
  rw [← reset_eq_resetIn] at hinv hgrid
  exact ⟨hinv, hgrid, fun _ => resetIn_inv_onGrid⟩

/-- What every event keeps, every sequence of events keeps. -/
theorem runEvents_keeps {P : State → Prop} (hP : ∀ {e s t}, P s → handleEvent e s = .next t → P t)
    {es : List Event} {s t : State} (hs : P s) (h : runEvents es s = .next t) : P t := by
  induction es generalizing s with
  | nil =>
    cases h
    exact hs
  | cons e es ih =>
    obtain ⟨u, hu, hrest⟩ := runEvents_cons_next h
    exact ih (hP hs hu) hrest

/-- A sequence of events keeps the configuration. -/
theorem runEvents_next_config {es : List Event} {s t : State} (h : runEvents es s = .next t) :
    t.config = s.config :=
  runEvents_keeps (P := fun u => u.config = s.config) (fun hs hu => (handleEvent_next_fields hu).1.trans hs) rfl h

/-- The byte of a command followed at once by a TICK executes the command over the emptied mailbox (30_encoding.md
R61). -/
theorem runEvents_cmd_commandByte {s : State} (h : configRuns s.config = true) (i : Instr) :
    runEvents (cmd (commandByte i)) s = exec i (publish .idle s) := by
  have hrx := handleEvent_rx h (commandByte i)
  rw [received_commandByte h, lut_commandByte] at hrx
  rw [cmd, runEvents_cons hrx, runEvents_singleton]
  exact handleEvent_tick (s := publish i s) h rfl

/-- An increment that fits adds `STEP` and leaves a state in which the next command can execute. -/
theorem runEvents_increase {s : State} (hs : s.Ready) (hfit : s.duty + s.config.step ≤ s.config.top) :
    ∃ t, runEvents (cmd (commandByte .increaseSpeed)) s = .next t ∧ t.Ready ∧ t.config = s.config ∧
      t.duty = s.duty + s.config.step := by
  have hexec := exec_of_ready (s := publish .idle s) hs .increaseSpeed
  obtain ⟨hready, -⟩ := inv_iff.mp (exec_next_inv (commandCode_lt .idle) hexec)
  obtain ⟨hconfig, -⟩ := exec_next_fields hexec
  have hduty := increasedDuty_eq (s := publish .idle s) (step_le_top hs.1)
  exact ⟨_, (runEvents_cmd_commandByte hs.1 .increaseSpeed).trans hexec, hready, hconfig, hduty.trans (if_pos hfit)⟩

/-- Where they all fit, `k` increments add `k` times `STEP`. -/
theorem runEvents_increases (k : Nat) {s : State} (hs : s.Ready)
    (hfit : s.duty + s.config.step * k ≤ s.config.top) :
    ∃ t, runEvents (cmdTimes (commandByte .increaseSpeed) k) s = .next t ∧
      t.duty = s.duty + s.config.step * k := by
  induction k generalizing s with
  | zero => exact ⟨s, rfl, rfl⟩
  | succ k ih =>
    rw [Nat.mul_succ] at hfit ⊢
    obtain ⟨u, hu, hready, hconfig, hduty⟩ := runEvents_increase hs (by omega)
    obtain ⟨t, ht, htduty⟩ := ih hready (by rw [hconfig, hduty]; omega)
    rw [hconfig, hduty] at htduty
    exact ⟨t, (runEvents_append _ hu).trans ht, by omega⟩

/-- The duties reachable from RESET: every event keeps the grid and the bound, and increments reach each point of it. -/
theorem reachable_duty_iff {cfg : Config} (h : configRuns cfg = true) (d : Nat) :
    (∃ es t, runEvents es (resetIn cfg) = .next t ∧ t.duty = d) ↔
      d % cfg.step = 0 ∧ d ≤ cfg.step * (cfg.top / cfg.step) := by
  obtain ⟨hinv, hgrid⟩ := resetIn_inv_onGrid h
  constructor
  · rintro ⟨es, t, ht, rfl⟩
    obtain ⟨-, htop, -⟩ := runEvents_keeps (P := State.Inv) handleEvent_keeps_inv hinv ht
    have hmod := runEvents_keeps (P := State.OnGrid) handleEvent_keeps_onGrid hgrid ht
    have hconfig : t.config = cfg := runEvents_next_config ht
    rw [State.OnGrid, hconfig] at hmod
    rw [hconfig] at htop
    refine ⟨hmod, ?_⟩
    calc t.duty = cfg.step * (t.duty / cfg.step) := (Nat.mul_div_cancel' (Nat.dvd_of_mod_eq_zero hmod)).symm
      _ ≤ cfg.step * (cfg.top / cfg.step) := Nat.mul_le_mul_left _ (Nat.div_le_div_right htop)
  · rintro ⟨hmod, hle⟩
    obtain ⟨k, rfl⟩ := Nat.dvd_of_mod_eq_zero hmod
    have hfit : (resetIn cfg).duty + cfg.step * k ≤ cfg.top :=
      (Nat.zero_add _).trans_le (hle.trans (Nat.mul_div_le _ _))
    obtain ⟨hready, -⟩ := inv_iff.mp hinv
    obtain ⟨t, ht, hduty⟩ := runEvents_increases k hready hfit
    exact ⟨_, t, ht, hduty.trans (Nat.zero_add _)⟩

/-- Settles O52: this hardware's duties are the general case at `TOP` 200 and `STEP` 10. -/
theorem reachableDutiesAreExactlyTheGrid : Obligations.ReachableDutiesAreExactlyTheGrid := by
  refine ⟨fun _ d h => reachable_duty_iff h d, fun d => ?_⟩
  rw [reset_eq_resetIn, reachable_duty_iff configRuns_hardware]
  change d % 10 = 0 ∧ d ≤ 10 * (200 / 10) ↔ ∃ k, k ≤ 20 ∧ d = 10 * k
  constructor
  · rintro ⟨hmod, hle⟩
    exact ⟨d / 10, by omega, by omega⟩
  · rintro ⟨k, hk, rfl⟩
    exact ⟨by omega, by omega⟩

end Sys2Proof.Machine
end

section
/-! The memory statements (20_memory.md): the order of an RX and a TICK, and what any sequence of events leaves in the
mailbox and adds to the status stream. -/

namespace Sys2Proof.Machine

/-! ## An RX beside another event (20_memory.md R40, R42, R43) -/

/-- Publishing the command that is already pending changes nothing. -/
theorem publish_self {s : State} {c : Instr} (h : s.mbx = commandCode c) : publish c s = s := by
  rw [publish, ← h]

/-- The first of two RX events in a row has no effect, whatever follows. -/
theorem runEvents_rx_rx {s : State} (h : configRuns s.config = true) (a b : Nat) (es : List Event) :
    runEvents (.rx a :: .rx b :: es) s = runEvents (.rx b :: es) s := by
  have hfirst := handleEvent_rx h a
  have hsecond : handleEvent (.rx b) (publish (lut (received s.config a)) s) =
      .next (publish (lut (received s.config b)) s) := handleEvent_rx h b
  rw [runEvents_cons hfirst, runEvents_cons hsecond, runEvents_cons (handleEvent_rx h b)]

/-- Settles O24: the second publish overwrites the first. -/
theorem lastWriteWins : Obligations.LastWriteWins := by
  refine fun s a b h => ⟨?_, runEvents_rx_rx h a b⟩
  rw [runEvents_rx_rx h, runEvents_singleton]
  exact handleEvent_rx h b

/-- An RX followed at once by a TICK executes the byte's command over the emptied mailbox. -/
theorem runEvents_rx_tick {s : State} (h : configRuns s.config = true) (b : Nat) :
    runEvents [.rx b, .tick] s = exec (lut (received s.config b)) (publish .idle s) := by
  rw [runEvents_cons (handleEvent_rx h b), runEvents_singleton]
  exact handleEvent_tick (s := publish (lut (received s.config b)) s) h rfl

/-- A TICK over an empty mailbox only pushes the duty. -/
theorem handleEvent_tick_of_idle {s : State} (hs : s.Ready) (hmbx : s.mbx = commandCode .idle) :
    handleEvent .tick s = .next (pushPwm s) := by
  rw [handleEvent_tick hs.1 hmbx, publish_self hmbx]
  exact exec_of_ready hs .idle

/-- Settles O25: the TICK takes the byte's command when it comes after the RX, and nothing when it comes before. -/
theorem bothOrdersOfRxAndTickComplete : Obligations.BothOrdersOfRxAndTickComplete := by
  refine fun s b hs hmbx => ⟨?_, ?_, _, exec_of_ready hs _⟩
  · rw [runEvents_rx_tick hs.1, publish_self hmbx]
  · rw [runEvents_cons (handleEvent_tick_of_idle hs hmbx), runEvents_singleton]
    exact handleEvent_rx (s := pushPwm s) hs.1 b

/-! ## Any sequence of events (20_memory.md R41; 40_decoder_mailbox.md R70)

The history formulas are shown of the enumeration form, which has no failing branch, and carried over to the machine
by the refinement `runEvents_simulates`. -/

/-- A legal state with a given command pending represents an enumerated one with that command pending. -/
theorem exists_represents {s : State} {c : Instr} (hs : s.Inv) (hmbx : s.mbx = commandCode c) :
    ∃ a : EnumState, a.mbx = c ∧ represents a s := by
  obtain ⟨⟨-, hdir, -⟩, -⟩ := inv_iff.mp hs
  obtain ⟨d, hd⟩ := exists_directionCode hdir
  exact ⟨⟨s.duty, d, c, s.pwmCmp⟩, rfl, rfl, hd, hmbx, rfl⟩

/-- Any sequence of events completes from a legal state, and follows the enumeration form from the same pending
command. -/
theorem runEvents_follows_enumRun (es : List Event) {s : State} {c : Instr} (hs : s.Inv)
    (hmbx : s.mbx = commandCode c) :
    ∃ a t, a.mbx = c ∧ runEvents es s = .next t ∧ t.mbx = commandCode (enumRun s.config es a).1.mbx ∧
      t.status = s.status ++ (enumRun s.config es a).2.filterMap statusOf := by
  obtain ⟨a, ha, hrep⟩ := exists_represents hs hmbx
  obtain ⟨t, ht, ⟨-, -, htmbx, -⟩, hstatus, -⟩ := runEvents_simulates es (inv_iff.mp hs).1 hrep
  exact ⟨a, t, ha, ht, htmbx, hstatus⟩

/-- Only the last event of a sequence decides what a take after it returns. -/
theorem takenAfter_cons_cons (cfg : Config) (e e' : Event) (es : List Event) :
    takenAfter cfg (e :: e' :: es) = takenAfter cfg (e' :: es) := by
  cases e <;> rfl

/-- After at least one event the mailbox holds what the formula of R41 says, whatever was pending before. -/
theorem enumRun_cons_mbx (cfg : Config) (e : Event) (es : List Event) (a : EnumState) :
    (enumRun cfg (e :: es) a).1.mbx = takenAfter cfg (e :: es) := by
  induction es generalizing e a with
  | nil => cases e <;> rfl
  | cons e' es ih =>
    rw [takenAfter_cons_cons]
    exact ih e' (enumEvent cfg e a).1

/-- From an empty mailbox the formula of R41 holds after no event too. -/
theorem enumRun_mbx (cfg : Config) (es : List Event) {a : EnumState} (h : a.mbx = .idle) :
    (enumRun cfg es a).1.mbx = takenAfter cfg es := by
  cases es with
  | nil => exact h
  | cons e es => exact enumRun_cons_mbx cfg e es a

/-- Settles O26: the mailbox after the events holds the code of the formula's command, which the take returns. -/
theorem takeReturnsTheLatestPublish : Obligations.TakeReturnsTheLatestPublish := by
  intro es s hs hmbx
  obtain ⟨a, t, ha, ht, htmbx, -⟩ := runEvents_follows_enumRun (c := .idle) es hs hmbx
  rw [enumRun_mbx s.config es ha] at htmbx
  exact ⟨t, _, ht, take_of_code htmbx⟩

/-- The first event's code comes before those of the events after it. -/
theorem enumRun_cons_codes (cfg : Config) (e : Event) (es : List Event) (a : EnumState) :
    (enumRun cfg (e :: es) a).2.filterMap statusOf =
      (enumEvent cfg e a).2.filterMap statusOf ++
        (enumRun cfg es (enumEvent cfg e a).1).2.filterMap statusOf := by
  rw [enumRun, List.filterMap_append]

/-- The codes of a run are those of the applied commands, unless its first event is a TICK that takes a command pending
at its start. The hypothesis, and not an empty mailbox, is what holds after an RX that no TICK follows. -/
theorem enumRun_codes (cfg : Config) (es : List Event) {a : EnumState}
    (h : es.head? = some .tick → a.mbx = .idle) :
    (enumRun cfg es a).2.filterMap statusOf = (appliedCommands cfg es).filterMap statusOf := by
  induction es using appliedCommands.induct generalizing a with
  | case1 => rfl
  | case2 b es ih =>
    have hrest := ih (a := (enumEvent cfg .tick (enumEvent cfg (.rx b) a).1).1) fun _ => rfl
    rw [enumRun_cons_codes, enumRun_cons_codes, enumEvent_tick_codes, hrest, appliedCommands]
    cases hc : statusOf (lut (received cfg b)) <;> simp [enumEvent, hc]
  | case3 e es hpair ih =>
    simp only [enumRun_cons_codes, appliedCommands]
    cases e with
    | reset => exact ih fun _ => rfl
    | rx b =>
      refine ih fun htick => ?_
      obtain ⟨rest, rfl⟩ := List.head?_eq_some_iff.mp htick
      exact absurd rfl (hpair b rest rfl)
    | tick =>
      have hidle : a.mbx = .idle := h rfl
      rw [enumEvent_tick_codes, hidle]
      exact ih fun _ => rfl

/-- Settles O28: the machine adds the codes of the enumeration form, which are those of the applied commands. -/
theorem statusStreamIsTheAppliedCommands : Obligations.StatusStreamIsTheAppliedCommands := by
  intro es s hs hmbx
  obtain ⟨a, t, ha, ht, -, hstatus⟩ := runEvents_follows_enumRun (c := .idle) es hs hmbx
  rw [enumRun_codes s.config es fun _ => ha] at hstatus
  exact ⟨t, ht, hstatus⟩

end Sys2Proof.Machine
end

section
/-! The encoding statements (30_encoding.md): the byte table and its encoder, the internal codes and the faults on codes
outside them, the status codes, and the order in which a script's events run. -/

namespace Sys2Proof.Machine

/-! ## The byte table (30_encoding.md R49, R50, R51, R57) -/

/-- Every byte is the Idle command or the one byte of its command. -/
theorem lut_eq_idle_or_eq_commandByte (b : Nat) : lut b = .idle ∨ b = commandByte (lut b) := by
  unfold lut
  split_ifs with hleft hright hincrease hdecrease hstop
  · exact .inr hleft
  · exact .inr hright
  · exact .inr hincrease
  · exact .inr hdecrease
  · exact .inr hstop
  · exact .inl rfl

/-- The encoder writes a byte back from its command, if that is not Idle. -/
theorem commandByte_lut {b : Nat} (h : lut b ≠ .idle) : commandByte (lut b) = b :=
  ((lut_eq_idle_or_eq_commandByte b).resolve_left h).symm

/-- A byte that is no other command's is Idle. -/
theorem lut_eq_idle {b : Nat} (h : ∀ i, i ≠ .idle → b ≠ commandByte i) : lut b = .idle := by
  by_contra hne
  exact h (lut b) hne (commandByte_lut hne).symm

/-- A string of one byte is one command. -/
theorem decodeExact_singleton (b : Nat) : decodeExact [b] = .ok (lut b) := rfl

/-- Settles O1: the command bytes are read back, and a byte of none of the five is Idle. -/
theorem lookupTableOfTheDecoder : Obligations.LookupTableOfTheDecoder := by
  refine ⟨lut_commandByte .left, lut_commandByte .right, lut_commandByte .increaseSpeed,
    lut_commandByte .decreaseSpeed, lut_commandByte .stop, fun b hleft hright hincrease hdecrease hstop => ?_,
    rfl, rfl, rfl⟩
  refine lut_eq_idle fun i hi => ?_
  cases i with
  | left => exact hleft
  | right => exact hright
  | increaseSpeed => exact hincrease
  | decreaseSpeed => exact hdecrease
  | stop => exact hstop
  | idle => exact absurd rfl hi

/-- The commands other than Idle. -/
def nonIdleCommands : List Instr := [.left, .right, .increaseSpeed, .decreaseSpeed, .stop]

theorem mem_nonIdleCommands {i : Instr} : i ∈ nonIdleCommands ↔ i ≠ .idle := by
  cases i <;> decide

/-- The bytes of this hardware that are not Idle are those of the five other commands, each once. -/
theorem nonIdleBytes_perm :
    ((List.range 256).filter fun b => !decide (lut b = .idle)).Perm (nonIdleCommands.map commandByte) := by
  have hcodes : (nonIdleCommands.map commandByte).Nodup := by decide
  rw [List.perm_ext_iff_of_nodup (List.nodup_range.filter _) hcodes]
  intro b
  rw [List.mem_filter, List.mem_range, Bool.not_eq_true', decide_eq_false_iff_not, List.mem_map]
  constructor
  · rintro ⟨-, hb⟩
    exact ⟨lut b, mem_nonIdleCommands.mpr hb, commandByte_lut hb⟩
  · rintro ⟨i, hi, rfl⟩
    have hbound : commandByte i ≤ 0x73 := forall_commandByte_le_iff.mpr le_rfl i
    refine ⟨by omega, ?_⟩
    rw [lut_commandByte]
    exact mem_nonIdleCommands.mp hi

/-- Settles O2: the 251 Idle bytes are the 256 less the five of the other commands. -/
theorem noByteIsIllegalAndIdleHas251 : Obligations.NoByteIsIllegalAndIdleHas251 := by
  refine ⟨decodeExact_singleton, ?_, fun b hb => congrArg (fun c => [c]) (commandByte_lut hb)⟩
  have hothers : ((List.range 256).filter fun b => !decide (lut b = .idle)).length = 5 := nonIdleBytes_perm.length_eq
  have htotal := (List.range 256).length_eq_length_filter_add fun b => decide (lut b = .idle)
  rw [List.length_range, hothers] at htotal
  omega

/-- Decoding a command's encoding gives the command and leaves what follows. -/
theorem decode_encode_append (i : Instr) (rest : List Nat) : decode (encode i ++ rest) = .ok (i, rest) := by
  rw [encode, List.singleton_append, decode, lut_commandByte]

/-- Settles O3: both decoders read the command's one byte. -/
theorem decodeOfEncodeIsTheCommand : Obligations.DecodeOfEncodeIsTheCommand := by
  refine fun i _ => ⟨?_, decode_encode_append i⟩
  rw [encode, decodeExact_singleton, lut_commandByte]

/-- The bytes of an eight-bit word are the word. -/
theorem wordBytes_eight {w : Nat} (h : w < 256) : wordBytes 8 w = [w] := by
  have hbyte : w % 2 ^ 8 / 256 ^ 0 % 256 = w := by omega
  exact congrArg (fun b => [b]) hbyte

/-- An eight-bit table word is read as its byte. -/
theorem decodeTableWord_eight {w : Nat} (h : w < 256) : decodeTableWord 8 w = some (lut w) := by
  rw [decodeTableWord, wordBytes_eight h, decodeExact_singleton]

/-- The table word of each command decodes to its row. -/
theorem decodeTableWord_commandByte (i : Instr) : decodeTableWord 8 (commandByte i) = some i := by
  have hbound : commandByte i ≤ 0x73 := forall_commandByte_le_iff.mpr le_rfl i
  rw [decodeTableWord_eight (by omega), lut_commandByte]

/-- Settles O5: the five words are the command bytes, and the word of 'z' is none of them. -/
theorem tableWordsDecodeToTheirRows : Obligations.TableWordsDecodeToTheirRows :=
  ⟨decodeTableWord_commandByte .left, decodeTableWord_commandByte .right,
    decodeTableWord_commandByte .increaseSpeed, decodeTableWord_commandByte .decreaseSpeed,
    decodeTableWord_commandByte .stop, decodeTableWord_eight (by decide)⟩

/-! ## Streams (30_encoding.md R59, R60) -/

/-- The encoder writes the first command's byte and then those of the rest. -/
theorem encodeAll_cons (i : Instr) (is : List Instr) : encodeAll (i :: is) = commandByte i :: encodeAll is := rfl

/-- A stream of commands is read back from its bytes. -/
theorem decodeAll_encodeAll (is : List Instr) : decodeAll (encodeAll is) = is := by
  induction is with
  | nil => rfl
  | cons i is ih => rw [encodeAll_cons, decodeAll, lut_commandByte, ih]

/-- A stream has one byte for each command. -/
theorem length_encodeAll (is : List Instr) : (encodeAll is).length = is.length := by
  induction is with
  | nil => rfl
  | cons i is ih => rw [encodeAll_cons, List.length_cons, List.length_cons, ih]

/-- A stream of bytes, none of them Idle, is written back from its commands. -/
theorem encodeAll_decodeAll (bs : List Nat) (h : ∀ b ∈ bs, lut b ≠ .idle) : encodeAll (decodeAll bs) = bs := by
  induction bs with
  | nil => rfl
  | cons b bs ih =>
    obtain ⟨hb, hbs⟩ := List.forall_mem_cons.mp h
    rw [decodeAll, encodeAll_cons, commandByte_lut hb, ih hbs]

/-- Settles O4, by induction on the stream in each direction. -/
theorem commandStreamsRoundTrip : Obligations.CommandStreamsRoundTrip :=
  ⟨fun is => ⟨decodeAll_encodeAll is, length_encodeAll is⟩, encodeAll_decodeAll⟩

/-! ## The internal codes (30_encoding.md R53 to R56) -/

/-- A code is read back as a command exactly when it is that command's. -/
theorem commandOfCode_eq_some_iff {c : Nat} {i : Instr} : commandOfCode c = some i ↔ c = commandCode i :=
  ⟨commandOfCode_eq_some, fun h => h ▸ commandOfCode_commandCode i⟩

/-- A code is read back as a direction exactly when it is that direction's. -/
theorem directionOfCode_eq_some_iff {d : Nat} {x : Direction} : directionOfCode d = some x ↔ d = directionCode x := by
  refine ⟨fun h => ?_, fun h => h ▸ directionOfCode_directionCode x⟩
  have hlegal : d < 3 := by
    by_contra hge
    rw [directionOfCode_eq_none.mpr (Nat.le_of_not_lt hge)] at h
    cases h
  obtain ⟨y, rfl⟩ := exists_directionCode hlegal
  simpa using h

/-- Settles O6: the tables, and which codes each reading takes and leaves. -/
theorem internalCodesReadBack : Obligations.InternalCodesReadBack :=
  ⟨⟨rfl, rfl, rfl, rfl, rfl, rfl⟩, ⟨rfl, rfl, rfl⟩, fun _ _ => commandOfCode_eq_some_iff,
    ⟨rfl, rfl, fun _ => commandOfCode_eq_none⟩, fun _ _ => directionOfCode_eq_some_iff, rfl,
    fun _ => directionOfCode_eq_none⟩

/-- A command's status code is its Command code. -/
theorem statusOf_eq_commandCode {i : Instr} {code : Nat} (h : statusOf i = some code) : code = commandCode i := by
  cases i <;> cases h <;> rfl

/-- No status code is 0. -/
theorem statusOf_pos {i : Instr} {code : Nat} (h : statusOf i = some code) : 0 < code := by
  cases i <;> cases h <;> decide

/-- Settles O7: the table's rows, and the codes from 1 to 5 leave out 0, 6 and 7. -/
theorem statusCodesNameTheirLines : Obligations.StatusCodesNameTheirLines := by
  refine ⟨rfl, rfl, rfl, rfl, rfl, rfl, rfl, rfl, rfl, rfl, rfl, fun _ _ => statusOf_eq_commandCode,
    fun c hc => ⟨?_, fun i hi => ?_⟩⟩
  · obtain rfl | rfl | rfl := hc <;> rfl
  · have hpos := statusOf_pos hi
    have hle := statusOf_le hi
    omega

/-! ## The faults (30_encoding.md R55; 41_dispatch.md R86; 43_duty.md R102) -/

/-- A TICK over a mailbox code that stands for no command faults where the block runs. -/
theorem handleEvent_tick_of_bad_code {s : State} (hruns : configRuns s.config = true) (h : 6 ≤ s.mbx) :
    handleEvent .tick s = .fault .unreachableCommandCode := by
  simp [handleEvent, configRefusal_eq_none.mpr hruns, handleTick_of_bad_code h]

/-- Every command faults over a code that stands for no direction. -/
theorem exec_of_bad_dir {s : State} (hruns : configRuns s.config = true) (h : 3 ≤ s.dir) (i : Instr) :
    exec i s = .fault .unreachableDirectionCode := by
  simp [exec_eq_finishTick, finishTick, configRefusal_eq_none.mpr hruns, directionOfCode_eq_none.mpr h]

/-- Every command faults over a duty above `TOP`, in a legal direction. -/
theorem exec_of_duty_above_top {s : State} (hruns : configRuns s.config = true) (hdir : s.dir < 3)
    (h : s.config.top < s.duty) (i : Instr) : exec i s = .fault .dutyOutOfRange := by
  obtain ⟨d, hd⟩ := exists_directionCode hdir
  simp [exec_eq_finishTick, finishTick, configRefusal_eq_none.mpr hruns, hd, h]

/-- Where every command faults over the emptied mailbox, a TICK over a legal mailbox code faults so. -/
theorem handleEvent_tick_of_exec_fault {s : State} {r : Fault} (hruns : configRuns s.config = true)
    (hmbx : s.mbx < 6) (h : ∀ i, exec i (publish .idle s) = .fault r) : handleEvent .tick s = .fault r := by
  obtain ⟨c, hc⟩ := exists_commandCode hmbx
  rw [handleEvent_tick hruns hc, h c]

/-- Settles O47: the take faults on the command code, and the command it takes on the direction, then on the duty. -/
theorem unreachableStatesFaultByName : Obligations.UnreachableStatesFaultByName := by
  intro s hruns
  have hbadDir (hmbx : s.mbx < 6) (hdir : 3 ≤ s.dir) : handleEvent .tick s = .fault .unreachableDirectionCode :=
    handleEvent_tick_of_exec_fault hruns hmbx (exec_of_bad_dir (s := publish .idle s) hruns hdir)
  refine ⟨fun hmbx => handleEvent_tick_of_bad_code hruns (by omega), handleEvent_tick_of_bad_code hruns,
    fun hmbx hdir => hbadDir hmbx hdir.ge, hbadDir, fun hmbx hdir hduty => ?_,
    fun i hdir => exec_of_bad_dir hruns hdir i, fun i hdir hduty => exec_of_duty_above_top hruns hdir hduty i⟩
  exact handleEvent_tick_of_exec_fault hruns hmbx (exec_of_duty_above_top (s := publish .idle s) hruns hdir hduty)

/-! ## Scripts (30_encoding.md R60) -/

/-- The state with a given script. -/
abbrev setScript (es : List Event) : State → State := mapEnvironment id (fun _ => es) id

/-- Setting the script that a state has changes nothing. -/
theorem setScript_self {s : State} {es : List Event} (h : s.inputs = es) : setScript es s = s := by
  subst h
  rfl

/-- With a script, a step is its head's event, and the script set to its tail, whatever script the event is handled
with. -/
theorem step_setScript_cons (e : Event) (es rest : List Event) (s : State) :
    step (setScript (e :: es) s) = mapNext (setScript es) (handleEvent e (setScript rest s)) :=
  (step_of_inputs_cons (s := setScript (e :: es) s) rfl).trans
    (handleEvent_mapEnvironment id (fun _ => es) id e (setScript rest s))

/-- The steps over a script answer what its events answer in order over the script that follows it. -/
theorem run_setScript_append (es rest : List Event) (s : State) :
    Host.Core.run Sys2Proof.core es.length (setScript (es ++ rest) s) = runEvents es (setScript rest s) := by
  induction es generalizing s with
  | nil => rfl
  | cons e es ih =>
    have hstep := step_setScript_cons e (es ++ rest) rest s
    rw [runEvents]
    generalize he : handleEvent e (setScript rest s) = answer at hstep ⊢
    cases answer with
    | fault r => exact run_succ_of_fault (M := Sys2Proof.core) hstep es.length
    | refused r => exact run_succ_of_refused (M := Sys2Proof.core) hstep es.length
    | next t =>
      obtain ⟨-, -, hinputs, -⟩ := handleEvent_next_fields he
      have hkept : setScript rest t = t := setScript_self hinputs
      have hrest := ih t
      rw [hkept] at hrest
      exact (run_succ_of_next (M := Sys2Proof.core) hstep es.length).trans hrest

/-- Settles O54, by induction on the script: an event commutes with the script it does not read. -/
theorem scriptRunsOneEventPerStep : Obligations.ScriptRunsOneEventPerStep :=
  run_setScript_append

end Sys2Proof.Machine
end

section
/-! The decoder and mailbox statements (40_decoder_mailbox.md): what an RX publishes, what a take leaves, how many codes
a run can emit. -/

namespace Sys2Proof.Machine

/-! ## Publish (40_decoder_mailbox.md R62 to R65) -/

/-- Settles O21: an RX is the publish of the received byte's command, which writes the mailbox alone. -/
theorem rxPublishesAndWritesNothingElse : Obligations.RxPublishesAndWritesNothingElse := by
  intro s b hruns
  have hrx := handleEvent_rx hruns b
  refine ⟨hrx, fun hb => ?_⟩
  rw [received_of_lt hb] at hrx
  exact hrx

/-- Settles O22: the publish leaves an empty mailbox, over which Idle only pushes. -/
theorem unrecognisedByteClobbersThePendingCommand : Obligations.UnrecognisedByteClobbersThePendingCommand := by
  intro s b hready hidle
  have hrx := handleEvent_rx hready.1 b
  have hrun := runEvents_rx_tick hready.1 b
  rw [hidle] at hrx hrun
  exact ⟨hrx, hrun.trans (exec_of_ready (s := publish .idle s) hready .idle)⟩

/-! ## Take (40_decoder_mailbox.md R67 to R69) -/

/-- Settles O23: over a legal code the take and the exchange both publish Idle, which over Idle changes nothing. -/
theorem takeIsAnExchangeWithIdle : Obligations.TakeIsAnExchangeWithIdle := by
  intro s c hmbx
  refine ⟨take_of_code hmbx, by rw [exchange, hmbx]; rfl, ?_⟩
  rintro rfl
  rw [take_of_code hmbx, publish_self hmbx]

/-- A TICK that completes executed the command it took, over the emptied mailbox. -/
theorem handleEvent_tick_next {s t : State} (h : handleEvent .tick s = .next t) :
    ∃ c, s.mbx = commandCode c ∧ exec c (publish .idle s) = .next t := by
  simpa using (handleEvent_next h).2

/-- A TICK that completes leaves a legal state with an empty mailbox. -/
theorem handleEvent_tick_next_drained {s t : State} (h : handleEvent .tick s = .next t) :
    t.Inv ∧ t.mbx = commandCode .idle := by
  obtain ⟨c, -, hexec⟩ := handleEvent_tick_next h
  obtain ⟨-, hmbx, -⟩ := exec_next_fields hexec
  exact ⟨exec_next_inv (commandCode_lt .idle) hexec, hmbx⟩

/-- Pushing a duty that the compare value already shows changes nothing. -/
theorem pushPwm_self {s : State} (h : s.pwmCmp = s.duty) : pushPwm s = s :=
  state_ext rfl rfl rfl rfl h.symm rfl rfl rfl rfl

/-- A TICK over an empty mailbox changes nothing in a legal state. -/
theorem handleEvent_tick_of_drained {s : State} (hs : s.Inv) (hmbx : s.mbx = commandCode .idle) :
    handleEvent .tick s = .next s := by
  obtain ⟨hready, hpwm, -⟩ := inv_iff.mp hs
  rw [handleEvent_tick_of_idle hready hmbx, pushPwm_self hpwm]

/-- An event that leaves a state as it is leaves it so any number of times. -/
theorem runEvents_replicate_of_fixed {e : Event} {s : State} (h : handleEvent e s = .next s) (n : Nat) :
    runEvents (List.replicate n e) s = .next s := by
  induction n with
  | zero => rfl
  | succ n ih => rw [List.replicate_succ, runEvents_cons h, ih]

/-- Settles O27: the state a TICK leaves is one that a TICK does not change. -/
theorem drainedMailboxStaysQuiet : Obligations.DrainedMailboxStaysQuiet := by
  intro s t n h
  obtain ⟨hinv, hmbx⟩ := handleEvent_tick_next_drained h
  exact runEvents_replicate_of_fixed (handleEvent_tick_of_drained hinv hmbx) n

/-! ## Consumed at most once (40_decoder_mailbox.md R70)

The bound is kept by counting a pending command as a code not yet emitted: an RX sets that count, a TICK turns it into
a code, and nothing else adds to the sum. -/

/-- A pending command counts as one, an empty mailbox as none. -/
theorem pending_toNat (s : State) : (pending s).toNat = if s.mbx = 0b000 then 0 else 1 := by
  by_cases h : s.mbx = 0b000 <;> simp [pending, commandCode, h]

/-- A pending command is one for which the TICK that takes it emits a code. -/
theorem pending_toNat_of_code {s : State} {c : Instr} (h : s.mbx = commandCode c) :
    (pending s).toNat = (statusOf c).toList.length := by
  rw [pending, h]
  cases c <;> rfl

/-- An RX leaves a command pending exactly when its byte counts as a command byte. -/
theorem pending_publish_lut (s : State) (cfg : Config) (b : Nat) :
    (pending (publish (lut (received cfg b)) s)).toNat = commandBytes cfg [.rx b] := by
  by_cases h : lut (received cfg b) = .idle <;> simp [pending, commandBytes, h]

/-- Each event counts by itself. -/
theorem commandBytes_cons (cfg : Config) (e : Event) (es : List Event) :
    commandBytes cfg (e :: es) = commandBytes cfg [e] + commandBytes cfg es := by
  cases e <;> simp [commandBytes]

/-- No event adds more to the codes, emitted and pending together, than the command byte it receives. -/
theorem handleEvent_next_codes_le {e : Event} {s t : State} (h : handleEvent e s = .next t) :
    t.status.length + (pending t).toNat ≤
      s.status.length + (pending s).toNat + commandBytes s.config [e] := by
  obtain ⟨-, ⟨-, rfl⟩ | ⟨b, rfl, rfl⟩ | ⟨-, c, hc, hexec⟩⟩ := handleEvent_next h
  · have hempty : (pending (resetRegisters s)).toNat = 0 := rfl
    rw [hempty, resetRegisters_status]
    omega
  · rw [pending_publish_lut, publish_status]
    omega
  · obtain ⟨-, hmbx, -⟩ := exec_next_fields hexec
    have hempty : (pending t).toNat = 0 := pending_toNat_of_code (c := .idle) hmbx
    have hcodes : t.status.length = s.status.length + (pending s).toNat := by
      rw [exec_next_status hexec, List.length_append, publish_status, pending_toNat_of_code hc]
    omega

/-- No sequence of events adds more to the codes, emitted and pending together, than the command bytes it receives. -/
theorem runEvents_next_codes_le {es : List Event} {s t : State} (h : runEvents es s = .next t) :
    t.status.length + (pending t).toNat ≤
      s.status.length + (pending s).toNat + commandBytes s.config es := by
  induction es generalizing s with
  | nil =>
    cases h
    exact Nat.le_add_right _ _
  | cons e es ih =>
    obtain ⟨u, hu, hrest⟩ := runEvents_cons_next h
    obtain ⟨hconfig, -⟩ := handleEvent_next_fields hu
    have hfirst := handleEvent_next_codes_le hu
    have htail := ih hrest
    rw [hconfig] at htail
    rw [commandBytes_cons]
    omega

/-- Settles O29: the emitted codes are at most the emitted and the pending ones together. -/
theorem eachPublishIsTakenAtMostOnce : Obligations.EachPublishIsTakenAtMostOnce := by
  intro es s t h
  rw [← pending_toNat]
  exact (Nat.le_add_right _ _).trans (runEvents_next_codes_le h)

/-! ## Completion (40_decoder_mailbox.md R72; 41_dispatch.md R83; 60_exceptions.md R103) -/

/-- Every event completes in a legal state: only a TICK can stop, and only over a state that is not legal. -/
theorem handleEvent_completes {s : State} (hs : s.Inv) (e : Event) : ∃ t, handleEvent e s = .next t := by
  obtain ⟨hready, -, hmbx⟩ := inv_iff.mp hs
  cases e with
  | reset => exact ⟨_, handleEvent_reset hready.1⟩
  | rx b => exact ⟨_, handleEvent_rx hready.1 b⟩
  | tick =>
    obtain ⟨c, hc⟩ := exists_commandCode hmbx
    exact ⟨_, (handleEvent_tick hready.1 hc).trans (exec_of_ready (s := publish .idle s) hready c)⟩

/-- Settles O48: the advanced state is legal, and every event completes in it. -/
theorem everyStepOfALegalStateCompletes : Obligations.EveryStepOfALegalStateCompletes :=
  fun s hs => handleEvent_completes (advance_inv hs) (nextEvent s)

end Sys2Proof.Machine
end

section
/-! The dispatch statements (41_dispatch.md): what a TICK takes, executes, emits and pushes, an RX inside a TICK, and
progress under fairness. -/

namespace Sys2Proof.Machine

/-! ## What a TICK executes (41_dispatch.md R73) -/

/-- Settles O20: the take of a legal code leaves the command and the emptied mailbox. -/
theorem tickExecutesTheTakenCommand : Obligations.TickExecutesTheTakenCommand :=
  fun _ _ => handleEvent_tick

/-- The first byte of an eight-bit word is the word. -/
theorem wordByte_eight {w : Nat} (h : w < 256) : wordByte 8 w = w := by
  rw [wordByte, Nat.mod_eq_of_lt (show w < 2 ^ 8 from h), Nat.mod_eq_of_lt h]

/-- The step over a fetched word is the TICK over the published command of the word's received byte. -/
theorem step_withFetchWord (s : State) (nbits w : Nat) :
    step (s.withFetchWord nbits w) =
      handleEvent .tick (publish (lut (received s.config (wordByte nbits w))) s) :=
  step_of_inputs_cons (s := s.withFetchWord nbits w) rfl

/-- Where the block runs, the step over a fetched byte executes the received byte's command over the emptied mailbox. -/
theorem step_withFetchWord_eight {s : State} {b : Nat} (hruns : configRuns s.config = true) (hb : b < 256) :
    step (s.withFetchWord 8 b) = exec (lut (received s.config b)) (publish .idle s) := by
  rw [step_withFetchWord, wordByte_eight hb]
  exact handleEvent_tick (s := publish (lut (received s.config b)) s) hruns rfl

/-- Settles O18: the decoder and the step read the same byte, and a port of eight bits or more receives it whole. -/
theorem stepRunsTheFetchedCommand : Obligations.StepRunsTheFetchedCommand := by
  intro s b hruns hb
  have hstep := step_withFetchWord_eight hruns hb
  refine ⟨decodeTableWord_eight hb, hstep, fun hwide => ?_⟩
  have hport : b < 2 ^ s.config.byteW := hb.trans_le (Nat.pow_le_pow_right two_pos hwide)
  rw [received_of_lt hport] at hstep
  exact hstep

/-! ## Idle (41_dispatch.md R76) -/

/-- Where a command can execute, Idle only pushes the duty. -/
theorem exec_idle {s : State} (h : s.Ready) : exec .idle s = .next (pushPwm s) := exec_of_ready h .idle

/-- Settles O35: Idle only pushes the duty, which a legal state's compare value already shows. -/
theorem idleHasNoEffect : Obligations.IdleHasNoEffect := by
  obtain ⟨-, -, -, -, -, hother, -⟩ := lookupTableOfTheDecoder
  refine ⟨rfl, hother, fun s hmbx => ?_, fun _ => exec_idle, fun s hs => ?_⟩
  · obtain ⟨-, -, hidle⟩ := takeIsAnExchangeWithIdle s .idle hmbx
    exact hidle rfl
  · obtain ⟨hready, hpwm, -⟩ := inv_iff.mp hs
    rw [exec_idle hready, pushPwm_self hpwm]

/-- Settles O41: the push writes no other element. -/
theorem idleFrame : Obligations.IdleFrame := by
  intro s t h
  obtain ⟨hready, -⟩ := exec_next h
  rw [exec_idle hready] at h
  cases h
  exact ⟨rfl, rfl, rfl, rfl, rfl, rfl, rfl, rfl⟩

/-! ## What a TICK that completes leaves (41_dispatch.md R74, R78 to R82) -/

/-- No command's effect writes both `DIR` and `DUTY`. -/
theorem effectOf_dir_or_duty (i : Instr) (s : State) :
    (effectOf i s).dir = s.dir ∨ (effectOf i s).duty = s.duty := by
  cases i with
  | left | right | stop => exact .inr rfl
  | increaseSpeed | decreaseSpeed | idle => exact .inl rfl

/-- The stream of a command that completes grows by at most one code. -/
theorem exec_next_status_cases {i : Instr} {s t : State} (h : exec i s = .next t) :
    t.status = s.status ∨ ∃ code, t.status = s.status ++ [code] := by
  have hstatus := exec_next_status h
  cases hcode : statusOf i with
  | none => exact .inl (by simpa [hcode] using hstatus)
  | some code => exact .inr ⟨code, by simpa [hcode] using hstatus⟩

/-- Settles O42: the taken command's effect and status over the emptied mailbox. -/
theorem tickChangesAtMostOneOfDirAndDuty : Obligations.TickChangesAtMostOneOfDirAndDuty := by
  intro s t h
  obtain ⟨-, hmbx⟩ := handleEvent_tick_next_drained h
  obtain ⟨c, -, hexec⟩ := handleEvent_tick_next h
  refine ⟨?_, hmbx, by simp [pending, hmbx], exec_next_status_cases (s := publish .idle s) hexec⟩
  obtain ⟨-, rfl⟩ := exec_next hexec
  simpa using effectOf_dir_or_duty c (publish .idle s)

/-- Settles O43: a TICK that completes leaves a legal state. -/
theorem everyTickPushesTheDuty : Obligations.EveryTickPushesTheDuty := by
  intro s t h
  obtain ⟨hinv, -⟩ := handleEvent_tick_next_drained h
  obtain ⟨⟨-, -, hduty⟩, hpwm, -⟩ := inv_iff.mp hinv
  exact ⟨hpwm, hpwm.trans_le hduty⟩

/-- Every command but Idle has its Command code as its status code (30_encoding.md R56). -/
theorem statusOf_of_ne_idle {i : Instr} (h : i ≠ .idle) : statusOf i = some (commandCode i) := by
  cases i with
  | idle => exact absurd rfl h
  | left | right | increaseSpeed | decreaseSpeed | stop => rfl

/-- Settles O44: the code in the mailbox fixes the command taken, and with it the code that is emitted. -/
theorem tickEmitsTheCodeOfTheTakenCommand : Obligations.TickEmitsTheCodeOfTheTakenCommand := by
  intro s t c hmbx h
  obtain ⟨hruns, -⟩ := handleEvent_next h
  rw [handleEvent_tick hruns hmbx] at h
  have hstatus := exec_next_status h
  refine ⟨fun hc => ?_, ?_⟩
  · rw [hstatus, statusOf_of_ne_idle hc]
    rfl
  · rintro rfl
    rw [hstatus]
    exact List.append_nil _

/-! ## An RX inside a TICK (41_dispatch.md R77)

Each part of a TICK after its take neither reads nor writes the mailbox, so an RX commutes with it. -/

theorem pushPwm_handleRx (b : Nat) (s : State) : pushPwm (handleRx b s) = handleRx b (pushPwm s) := rfl

theorem emitStatus_handleRx (i : Instr) (b : Nat) (s : State) :
    emitStatus i (handleRx b s) = handleRx b (emitStatus i s) := by
  cases i <;> rfl

theorem effectOf_handleRx (i : Instr) (b : Nat) (s : State) :
    effectOf i (handleRx b s) = handleRx b (effectOf i s) := by
  cases i <;> rfl

/-- Settles O46: the RX is moved past the push, past the status and past the effect. -/
theorem rxInsideATickEqualsRxAfterIt : Obligations.RxInsideATickEqualsRxAfterIt := by
  intro b i s
  refine ⟨exec_mapNext i (handleRx b) (fun _ => ⟨rfl, rfl, rfl⟩) (fun u => ?_) s, fun effect _ => ?_, ?_⟩
  · rw [effectOf_handleRx, emitStatus_handleRx, pushPwm_handleRx]
  · rw [emitStatus_handleRx, pushPwm_handleRx]
  · rw [pushPwm_handleRx]

/-! ## Progress under fairness (41_dispatch.md R84) -/

/-- Every sequence of events completes from a legal state, in a legal state. -/
theorem runEvents_completes (es : List Event) {s : State} (hs : s.Inv) : ∃ t, runEvents es s = .next t ∧ t.Inv := by
  induction es generalizing s with
  | nil => exact ⟨s, rfl, hs⟩
  | cons e es ih =>
    obtain ⟨u, hu⟩ := handleEvent_completes hs e
    obtain ⟨t, ht, hinv⟩ := ih (handleEvent_keeps_inv hs hu)
    exact ⟨t, (runEvents_cons hu).trans ht, hinv⟩

section
variable {env : Nat → Event}

/-- A fair execution has a first TICK at or after every point. -/
theorem exists_first_tick (h : FairTicks env) (n : Nat) :
    ∃ m, n ≤ m ∧ env m = .tick ∧ ∀ k, n ≤ k → k < m → env k ≠ .tick := by
  obtain ⟨hle, htick⟩ := Nat.find_spec (h n)
  exact ⟨Nat.find (h n), hle, htick, fun k hk hlt hktick => Nat.find_min (h n) hlt ⟨hk, hktick⟩⟩

/-- The first `n + 1` events are the first `n` and then event `n`. -/
theorem firstEvents_succ (n : Nat) : firstEvents env (n + 1) = firstEvents env n ++ [env n] := by
  simp [firstEvents, List.range_succ]

/-- One event more is handled where the first `n` lead. -/
theorem runEvents_firstEvents_succ {n : Nat} {s u : State} (h : runEvents (firstEvents env n) s = .next u) :
    runEvents (firstEvents env (n + 1)) s = handleEvent (env n) u := by
  rw [firstEvents_succ, runEvents_append _ h, runEvents_singleton]

/-- An execution from a legal state whose latest event is an RX has its byte's command in the mailbox. -/
theorem mbx_of_runEvents_rx {k b : Nat} {s u : State} (hs : s.Inv) (hrx : env k = .rx b)
    (h : runEvents (firstEvents env (k + 1)) s = .next u) : u.mbx = commandCode (lut (received s.config b)) := by
  obtain ⟨v, hv, hvinv⟩ := runEvents_completes (firstEvents env k) hs
  have hlast := (runEvents_firstEvents_succ hv).symm.trans h
  rw [hrx, handleEvent_rx hvinv.1] at hlast
  cases hlast
  rw [publish_mbx, runEvents_next_config hv]

end

/-- Settles O56: fairness gives the first TICK, and legality carries the execution to it and through it. -/
theorem fairTicksExecuteThePendingCommand : Obligations.FairTicksExecuteThePendingCommand := by
  intro env s hfair hs n
  obtain ⟨m, hnm, htick, hfirst⟩ := exists_first_tick hfair n
  obtain ⟨u, hu, huinv⟩ := runEvents_completes (firstEvents env m) hs
  obtain ⟨t, ht⟩ := handleEvent_completes huinv .tick
  obtain ⟨c, hc, hexec⟩ := handleEvent_tick_next ht
  obtain ⟨-, hmbx⟩ := handleEvent_tick_next_drained ht
  refine ⟨m, hnm, htick, hfirst, u, t, c, hu, ?_, hc, hexec, hmbx, ?_⟩
  · rw [runEvents_firstEvents_succ hu, htick, ht]
  · rintro k b - rfl hrx
    have hpublished := mbx_of_runEvents_rx hs hrx hu
    exact (commandCode_inj _ _).mp (hc.symm.trans hpublished)

end Sys2Proof.Machine
end

section
/-! The direction statements (42_direction.md): what Left, Right and Stop leave, and what follows a Stop. -/

namespace Sys2Proof.Machine

/-! ## One command for each direction

Left, Right and Stop differ only in the direction they select, so each rule is proved once for all three. -/

/-- The command that selects a direction (42_direction.md R87, R88, R89). -/
def directionCommand : Direction → Instr
  | .forward => .left
  | .reverse => .right
  | .neutral => .stop

/-- The state a direction's command leaves. -/
def selectDirection (d : Direction) (s : State) : State :=
  { s with dir := directionCode d, status := s.status ++ [commandCode (directionCommand d)], pwmCmp := s.duty }

/-- Left, Right and Stop are the commands that select a direction. -/
theorem exists_directionCommand {i : Instr} (h : i = .left ∨ i = .right ∨ i = .stop) :
    ∃ d, i = directionCommand d := by
  obtain rfl | rfl | rfl := h
  · exact ⟨.forward, rfl⟩
  · exact ⟨.reverse, rfl⟩
  · exact ⟨.neutral, rfl⟩

/-- The effect of a direction's command, its status code and the push are the state it leaves. -/
theorem finish_directionCommand (d : Direction) (s : State) :
    pushPwm (emitStatus (directionCommand d) (effectOf (directionCommand d) s)) = selectDirection d s := by
  cases d <;> rfl

/-- Where a command can execute, a direction's command selects it. -/
theorem exec_directionCommand {s : State} (h : s.Ready) (d : Direction) :
    exec (directionCommand d) s = .next (selectDirection d s) := by
  rw [exec_of_ready h, finish_directionCommand]

/-! ## The three results (42_direction.md R87, R88, R89) -/

/-- Where a command can execute, a direction's command leaves the direction selected and asserts the direction's own
enable only. -/
theorem exec_directionCommand_enables {s : State} (h : s.Ready) (d : Direction) :
    ∃ t, exec (directionCommand d) s = .next t ∧ t = selectDirection d s ∧
      fwdEn t = decide (d = .forward) ∧ revEn t = decide (d = .reverse) := by
  obtain ⟨hfwd, hrev, -⟩ := enablesAreFunctionsOfDir (selectDirection d s) d rfl
  exact ⟨_, exec_directionCommand h d, rfl, hfwd, hrev⟩

/-- Settles O30: Left is the command of Forward. -/
theorem leftSelectsForward : Obligations.LeftSelectsForward :=
  ⟨lut_commandByte .left, rfl, fun _ h => exec_directionCommand_enables h .forward⟩

/-- Settles O31: Right is the command of Reverse. -/
theorem rightSelectsReverse : Obligations.RightSelectsReverse :=
  ⟨lut_commandByte .right, rfl, fun _ h => exec_directionCommand_enables h .reverse⟩

/-- Settles O32: Stop is the command of Neutral. -/
theorem stopSelectsNeutralAndKeepsTheDuty : Obligations.StopSelectsNeutralAndKeepsTheDuty :=
  ⟨lut_commandByte .stop, rfl, fun _ h => exec_directionCommand_enables h .neutral⟩

/-- Settles O39: the state that is left when one of the three completes shows each field. -/
theorem directionCommandsFrame : Obligations.DirectionCommandsFrame := by
  intro i s t hi h
  obtain ⟨d, rfl⟩ := exists_directionCommand hi
  obtain ⟨hready, -⟩ := exec_next h
  rw [exec_directionCommand hready] at h
  cases h
  exact ⟨rfl, rfl, rfl, rfl, rfl, rfl, rfl, rfl⟩

/-! ## After a Stop (42_direction.md R93; 43_duty.md R101; 70_reset_and_hazards.md R127) -/

/-- The state after a Stop's byte and its TICK. -/
abbrev stopped (s : State) : State := selectDirection .neutral (publish .idle s)

/-- A Stop leaves a state in which the next command can execute. -/
theorem stopped_ready {s : State} (h : s.Ready) : (stopped s).Ready := by
  obtain ⟨hruns, -, hduty⟩ := h
  exact ⟨hruns, directionCode_lt .neutral, hduty⟩

/-- A command after a Stop executes over the state the Stop leaves, whose mailbox is already empty. -/
theorem runEvents_stop_cmd {s : State} (h : s.Ready) (i : Instr) :
    runEvents (cmd (commandByte .stop) ++ cmd (commandByte i)) s = exec i (stopped s) := by
  have hstop : runEvents (cmd (commandByte .stop)) s = .next (stopped s) :=
    (runEvents_cmd_commandByte h.1 .stop).trans (exec_directionCommand (s := publish .idle s) h .neutral)
  obtain ⟨hruns, -⟩ := stopped_ready h
  rw [runEvents_append _ hstop, runEvents_cmd_commandByte hruns, publish_self (s := stopped s) rfl]

/-- Selecting a direction after a Stop completes at the duty from before the Stop. -/
theorem runEvents_stop_directionCommand {s : State} (h : s.Ready) (d : Direction) :
    ∃ t, runEvents (cmd (commandByte .stop) ++ cmd (commandByte (directionCommand d))) s = .next t ∧
      t.duty = s.duty ∧ t.pwmCmp = s.duty ∧ t.dir = directionCode d :=
  ⟨_, (runEvents_stop_cmd h _).trans (exec_directionCommand (stopped_ready h) d), rfl, rfl, rfl⟩

/-- An increment after a Stop completes in Neutral with the increased duty pushed. -/
theorem runEvents_stop_increaseSpeed {s : State} (h : s.Ready) :
    ∃ t, runEvents (cmd (commandByte .stop) ++ cmd (commandByte .increaseSpeed)) s = .next t ∧
      t.pwmCmp = t.duty ∧ t.dir = directionCode .neutral ∧ t.duty = increasedDuty s :=
  ⟨_, (runEvents_stop_cmd h _).trans (exec_of_ready (stopped_ready h) .increaseSpeed), rfl, rfl, rfl⟩

/-- Settles O38: the Stop keeps the duty, from which the next command goes on. -/
theorem resumeAfterStopKeepsTheDuty : Obligations.ResumeAfterStopKeepsTheDuty := by
  refine fun s h =>
    ⟨runEvents_stop_directionCommand h .forward, runEvents_stop_directionCommand h .reverse, ?_⟩
  obtain ⟨t, ht, hpwm, hdir, hduty⟩ := runEvents_stop_increaseSpeed h
  refine ⟨t, ht, hpwm, hdir, fun hfits => ?_⟩
  calc t.pwmCmp = increasedDuty s := hpwm.trans hduty
    _ = s.duty + s.config.step := if_pos (decide_eq_true hfits)

end Sys2Proof.Machine
end

section
/-! The duty statements (43_duty.md): what IncreaseSpeed and DecreaseSpeed leave, and the counter at its two ends. -/

namespace Sys2Proof.Machine

/-! ## When a step fits and when the duty holds (43_duty.md R94, R95) -/

theorem increasedDuty_of_fits {s : State} (h : s.duty ≤ s.config.top - s.config.step) :
    increasedDuty s = s.duty + s.config.step :=
  if_pos (decide_eq_true h)

theorem increasedDuty_of_not_fits {s : State} (h : s.config.top - s.config.step < s.duty) :
    increasedDuty s = s.duty :=
  if_neg (by simpa [incrementFits] using h)

theorem decreasedDuty_of_fits {s : State} (h : s.config.step ≤ s.duty) :
    decreasedDuty s = s.duty - s.config.step :=
  if_pos (decide_eq_true h)

theorem decreasedDuty_of_not_fits {s : State} (h : s.duty < s.config.step) : decreasedDuty s = s.duty :=
  if_neg (by simpa [decrementFits] using h)

/-- `STEP` is at least 1 where the block runs (00_scope.md R7). -/
theorem step_pos {c : Config} (h : configRuns c = true) : 0 < c.step := by
  obtain ⟨hadmitted, -⟩ := (configRuns_iff c).mp h
  obtain ⟨hpos, -⟩ := (configAdmitted_iff c).mp hadmitted
  exact hpos

/-! ## The state that is left

The two duty commands differ only in the duty they leave, which is that of their effect. -/

/-- The state a duty command leaves: its code emitted, the new duty in the counter and pushed. -/
def leaveDuty (i : Instr) (d : Nat) (s : State) : State :=
  { s with duty := d, status := s.status ++ [commandCode i], pwmCmp := d }

/-- Where a command can execute, a duty command leaves the duty of its effect. -/
theorem exec_dutyCommand {i : Instr} {s : State} (hi : i = .increaseSpeed ∨ i = .decreaseSpeed) (h : s.Ready) :
    exec i s = .next (leaveDuty i (effectOf i s).duty s) := by
  rw [exec_of_ready h]
  obtain rfl | rfl := hi <;> rfl

theorem exec_increaseSpeed {s : State} (h : s.Ready) :
    exec .increaseSpeed s = .next (leaveDuty .increaseSpeed (increasedDuty s) s) :=
  exec_dutyCommand (.inl rfl) h

theorem exec_decreaseSpeed {s : State} (h : s.Ready) :
    exec .decreaseSpeed s = .next (leaveDuty .decreaseSpeed (decreasedDuty s) s) :=
  exec_dutyCommand (.inr rfl) h

/-! ## The two results (43_duty.md R94, R95) -/

/-- Settles O33: `STEP <= TOP` makes `DUTY <= TOP - STEP` the test that the sum stays at or below `TOP`. -/
theorem increaseSpeedAddsStepOrHolds : Obligations.IncreaseSpeedAddsStepOrHolds := by
  refine ⟨lut_commandByte .increaseSpeed, rfl, fun s h => ⟨fun hfits => ⟨?_, ?_⟩, fun hholds => ?_⟩⟩
  · exact Nat.add_le_of_le_sub (step_le_top h.1) hfits
  · rw [exec_increaseSpeed h, increasedDuty_of_fits hfits]
    rfl
  · rw [exec_increaseSpeed h, increasedDuty_of_not_fits hholds]
    rfl

/-- Settles O34: the effect's duty in each of the two cases. -/
theorem decreaseSpeedSubtractsStepOrHolds : Obligations.DecreaseSpeedSubtractsStepOrHolds := by
  refine ⟨lut_commandByte .decreaseSpeed, rfl, fun s h => ⟨fun hfits => ?_, fun hholds => ?_⟩⟩
  · rw [exec_decreaseSpeed h, decreasedDuty_of_fits hfits]
    rfl
  · rw [exec_decreaseSpeed h, decreasedDuty_of_not_fits hholds]
    rfl

/-! ## The frame (43_duty.md R94, R95, R101) -/

theorem increasedDuty_holds_or_adds (s : State) :
    increasedDuty s = s.duty ∨ increasedDuty s = s.duty + s.config.step := by
  rcases Nat.lt_or_ge (s.config.top - s.config.step) s.duty with hholds | hfits
  · exact .inl (increasedDuty_of_not_fits hholds)
  · exact .inr (increasedDuty_of_fits hfits)

theorem decreasedDuty_holds_or_subtracts (s : State) :
    decreasedDuty s = s.duty ∨ decreasedDuty s + s.config.step = s.duty := by
  rcases Nat.lt_or_ge s.duty s.config.step with hholds | hfits
  · exact .inl (decreasedDuty_of_not_fits hholds)
  · exact .inr (by rw [decreasedDuty_of_fits hfits, Nat.sub_add_cancel hfits])

/-- A duty command's effect holds the duty or moves it by `STEP` in the command's own direction. -/
theorem effectOf_duty_cases {i : Instr} (hi : i = .increaseSpeed ∨ i = .decreaseSpeed) (s : State) :
    (effectOf i s).duty = s.duty ∨ (i = .increaseSpeed ∧ (effectOf i s).duty = s.duty + s.config.step) ∨
      (i = .decreaseSpeed ∧ (effectOf i s).duty + s.config.step = s.duty) := by
  obtain rfl | rfl := hi
  · exact (increasedDuty_holds_or_adds s).imp_right fun hadds => .inl ⟨rfl, hadds⟩
  · exact (decreasedDuty_holds_or_subtracts s).imp_right fun hsubtracts => .inr ⟨rfl, hsubtracts⟩

/-- Settles O40: the state that is left when one of the two completes shows each field. -/
theorem dutyCommandsFrame : Obligations.DutyCommandsFrame := by
  intro i s t hi h
  obtain ⟨hready, -⟩ := exec_next h
  rw [exec_dutyCommand hi hready] at h
  cases h
  exact ⟨rfl, rfl, rfl, rfl, rfl, rfl, rfl, rfl, effectOf_duty_cases hi s⟩

/-! ## The counter at its ends (43_duty.md R97, R98) -/

/-- Whether a command holds the duty is fixed by the configuration and the duty. -/
theorem effectOf_holds_of_holds {i : Instr} {s u : State} (hheld : (effectOf i s).duty = s.duty)
    (hconfig : u.config = s.config) (hduty : u.duty = s.duty) : (effectOf i u).duty = u.duty := by
  cases i with
  | increaseSpeed => simpa [effectOf, doIncrease, increasedDuty, incrementFits, hconfig, hduty] using hheld
  | decreaseSpeed => simpa [effectOf, doDecrease, decreasedDuty, decrementFits, hconfig, hduty] using hheld
  | left | right | stop | idle => rfl

/-- The state after the byte and the TICK of a duty command that holds the duty. -/
abbrev held (i : Instr) (s : State) : State := leaveDuty i s.duty (publish .idle s)

theorem runEvents_cmd_of_held {i : Instr} {s : State} (hi : i = .increaseSpeed ∨ i = .decreaseSpeed) (hs : s.Ready)
    (hheld : (effectOf i s).duty = s.duty) : runEvents (cmd (commandByte i)) s = .next (held i s) := by
  have hduty : (effectOf i (publish .idle s)).duty = s.duty := effectOf_holds_of_holds hheld rfl rfl
  rw [runEvents_cmd_commandByte hs.1, exec_dutyCommand (s := publish .idle s) hi hs, hduty]

/-- A duty command that holds the duty once holds it any number of times, and each time emits its code. -/
theorem runEvents_cmdTimes_of_held (n : Nat) {i : Instr} {s : State}
    (hi : i = .increaseSpeed ∨ i = .decreaseSpeed) (hs : s.Ready) (hheld : (effectOf i s).duty = s.duty) :
    ∃ t, runEvents (cmdTimes (commandByte i) n) s = .next t ∧ t.duty = s.duty ∧ t.config = s.config ∧
      t.dir = s.dir ∧ t.status = s.status ++ List.replicate n (commandCode i) := by
  induction n generalizing s with
  | zero => exact ⟨s, rfl, rfl, rfl, rfl, (List.append_nil _).symm⟩
  | succ n ih =>
    have hagain : (effectOf i (held i s)).duty = s.duty := effectOf_holds_of_holds hheld rfl rfl
    obtain ⟨t, ht, hduty, hconfig, hdir, hstatus⟩ := ih (s := held i s) hs hagain
    refine ⟨t, (runEvents_append _ (runEvents_cmd_of_held hi hs hheld)).trans ht, hduty, hconfig, hdir, ?_⟩
    rw [hstatus, List.replicate_succ]
    exact (List.append_cons _ _ _).symm

/-- Settles O36: at `TOP` an increment does not fit, since `STEP` is at least 1. -/
theorem increaseSaturatesAtTop : Obligations.IncreaseSaturatesAtTop := by
  intro n s hs htop
  have hstep := step_pos hs.1
  have hle := step_le_top hs.1
  have hheld : increasedDuty s = s.duty := increasedDuty_of_not_fits (by omega)
  obtain ⟨t, ht, hduty, hconfig, hdir, hstatus⟩ := runEvents_cmdTimes_of_held n (.inl rfl) hs hheld
  exact ⟨t, ht, by rw [hduty, htop, hconfig], hconfig, hdir, hstatus⟩

/-- Settles O37: at 0 a decrement does not fit, since `STEP` is at least 1. -/
theorem decreaseSaturatesAtZero : Obligations.DecreaseSaturatesAtZero := by
  intro n s hs hzero
  have hheld : decreasedDuty s = s.duty := decreasedDuty_of_not_fits (hzero ▸ step_pos hs.1)
  obtain ⟨t, ht, hduty, -, hdir, hstatus⟩ := runEvents_cmdTimes_of_held n (.inr rfl) hs hheld
  exact ⟨t, ht, hduty.trans hzero, hdir, hstatus⟩

end Sys2Proof.Machine
end

section
/-! The statement about exceptions (60_exceptions.md R103): no run from a legal state meets a fault or a refusal. -/

namespace Sys2Proof.Machine

/-- Settles O53: one event from a legal state completes in a legal state, and the induction on the sequence is
`runEvents_completes`. -/
theorem everyEventSequenceCompletesLegally : Obligations.EveryEventSequenceCompletesLegally :=
  fun es _ hs => runEvents_completes es hs

end Sys2Proof.Machine
end

section
/-! The reset statements (70_reset_and_hazards.md): what a RESET leaves, and what the TICK after it finds. -/

namespace Sys2Proof.Machine

/-- What a RESET leaves, each element at its value (70_reset_and_hazards.md R117; log entry 3). -/
theorem resetRegisters_eq (s : State) :
    resetRegisters s =
      { s with duty := 0, dir := directionCode s.config.dirReset, mbx := 0b000, pwmCmp := 0 } := rfl

/-- Settles O14: where the block runs, a RESET is not refused and answers the reset registers. -/
theorem resetEventSetsEveryElement : Obligations.ResetEventSetsEveryElement :=
  fun s hruns => (handleEvent_reset hruns).trans (congrArg _ (resetRegisters_eq s))

/-- Settles O15: a RESET leaves a legal state with an empty mailbox, whatever the mailbox held (log entry 3), and a TICK
changes nothing there. -/
theorem pendingCommandIsLostAtReset : Obligations.PendingCommandIsLostAtReset := by
  intro s hruns
  calc runEvents [.reset, .tick] s
      = runEvents [.tick] (resetRegisters s) := runEvents_cons (handleEvent_reset hruns)
    _ = handleEvent .tick (resetRegisters s) := runEvents_singleton _ _
    _ = .next (resetRegisters s) :=
        handleEvent_tick_of_drained (resetRegisters_inv hruns) (resetRegisters_mbx s)
    _ = _ := congrArg _ (resetRegisters_eq s)

end Sys2Proof.Machine
end
